-- ==== Sys2Proof/Word.lean ====
section
/-! DEFINITION. The machine's word, its register index and its plainest arithmetic (spec/00_scope.md R5 to R8).
`w.toNat` is the spec's u(w), `w.toInt` its s(w), `BitVec.ofInt 32 n` its word(n), `a + b` its `a +32 b`. -/

namespace Sys2Proof

/-- A memory word, an instruction, a register or the program counter: 32 bits (R5; the register and pc widths are the
spec's decisions D1 and D3). -/
abbrev Word := BitVec 32

/-- The 3-bit register index: eight registers, so no other index exists (R5, R23). -/
abbrev Reg := Fin 8

/-- The 16-bit field of an instruction, before any sign interpretation (R65). -/
abbrev Field16 := BitVec 16

/-- `word(n)` of R7: the Word whose unsigned value is `n` modulo 2^32, for any integer. -/
abbrev Word.ofInteger (n : Int) : Word := BitVec.ofInt 32 n

end Sys2Proof
end

