-- ==== Sys2Proof/Config.lean ====
section
/-! DEFINITION. What one machine and one run of it fix: the open parameters of the spec (spec/92_eei_decisions.md, the
line 'Open parameters of the model, gathered') and the two free values: the contents of memory beyond the image, and the
value of a label whose line address is no 32-bit signed integer. -/

namespace Sys2Proof

/-- The parameters a machine is built with. They stand in State, so that every statement about every state holds for
every value of them; no step changes them. -/
structure Config where
  /-- `MEM_WORDS`, the memory capacity in words: OPEN in the spec (R5, D4). -/
  memWords : Nat
  /-- DESIGN CHOICE (log entry 3): which power-on contents of unloaded memory this run has. Nothing reads it but the
  free value `Config.unloadedWord`. -/
  powerOn : Nat
  deriving DecidableEq, Repr

/-- The upper limit the spec puts on `MEM_WORDS` (R5, D4), so that wrapped and unbounded address sums agree (R48). -/
def maxMemWords : Nat := 2 ^ 31 - 32768

/-- FREE VALUE (R30, R52, D7, U8; log entry 3): the Word that address `addr`, at or above NUM_LOADED, holds until a
`sw` writes it. It has no body, so no proof can rest on what it is; it is a function of the run and the address, so two
reads of one unwritten word in one run give the same Word. -/
opaque Config.unloadedWord (powerOn addr : Nat) : Word

/-- FREE VALUE (R35 against R146; log entry 11): the value of a label on an instruction line whose address `i` is above
2^31 - 1, which no 32-bit signed integer equals. It has no body. No program that long makes an image a machine can be
launched with (R5). -/
opaque Config.labelPastRange (i : Nat) : Word

/-- The parameters State.reset takes. PRESUMED (log entry 2): MEM_WORDS is 65536, the default the spec suggests from
general knowledge. -/
def Config.default : Config := { memWords := 65536, powerOn := 0 }

end Sys2Proof
end

