-- ==== Sys2Proof/Syntax.lean ====
section
/-! DEFINITION. The syntax: the instructions the decoder reads (spec/30_encoding.md R67, R69) and, for the encoder half
of the block (R2 part c), the parsed assembly line and the encoder's errors (spec/45_encoder_labels_fill.md). -/

namespace Sys2Proof

/-- An instruction, one constructor per row of spec/opcode_table.json. The operands are exactly the fields its format
uses (R67): a bit the format ignores is no part of the instruction (R71, R72). -/
inductive Instr where
  /-- R-type, R100. -/
  | add (regA regB dest : Reg)
  /-- R-type, R101. -/
  | nor (regA regB dest : Reg)
  /-- I-type, R111. -/
  | lw (regA regB : Reg) (field16 : Field16)
  /-- I-type, R112. -/
  | sw (regA regB : Reg) (field16 : Field16)
  /-- I-type, R120. -/
  | beq (regA regB : Reg) (field16 : Field16)
  /-- J-type, R121. -/
  | jalr (regA regB : Reg)
  /-- O-type, R130. -/
  | halt
  /-- O-type, R131. -/
  | noop
  deriving DecidableEq, Repr

/-- The eight opcodes (R1, R69). -/
inductive Opcode where
  | add | nor | lw | sw | beq | jalr | halt | noop
  deriving DecidableEq, Repr

/-- The opcode of an instruction. -/
def Instr.opcode : Instr → Opcode
  | .add _ _ _ => .add
  | .nor _ _ _ => .nor
  | .lw _ _ _ => .lw
  | .sw _ _ _ => .sw
  | .beq _ _ _ => .beq
  | .jalr _ _ => .jalr
  | .halt => .halt
  | .noop => .noop

/-- A mnemonic of assembly text: an opcode's or the one directive, `.fill` (R80, R83). -/
inductive Mnemonic where
  | instr (op : Opcode)
  | fill
  deriving DecidableEq, Repr

/-- A parsed assembly line, the encoder's input (R36, R140): five strings, an empty one standing for an absent token. -/
structure Line where
  label : String
  opcode : String
  arg0 : String
  arg1 : String
  arg2 : String
  deriving DecidableEq, Repr

/-- The encoder's errors, by name (R161, D31); results of a function, never events of the machine (R191). -/
inductive AsmError where
  /-- A label definition whose name R82 does not allow (R143). -/
  | invalidLabel
  /-- A name defined on two lines (R143, R148). -/
  | duplicateLabel
  /-- A symbolic operand that names no label in the table when it is resolved (R144). -/
  | undefinedLabel
  /-- A mnemonic that is none of the nine (R150). -/
  | unknownOpcode
  /-- A register or R-type destination operand that is not a numeric token (R152, R153). -/
  | nonIntegerRegister
  /-- A register operand outside 0 to 7 (R152). -/
  | registerRange
  /-- An I-type offset outside -32768 to 32767 (R154). -/
  | offsetRange
  /-- A `.fill` literal outside -2^31 to 2^31 - 1 (R147, R157; the name is the spec's own, D21). -/
  | fillRange
  deriving DecidableEq, Repr

end Sys2Proof
end

