-- ==== Sys2Proof/WellFormed.lean ====
section
/-! DEFINITION. The checks a term can fail before the machine runs. An `Instr` has none: its registers are `Fin 8` and
its field has 16 bits, and the spec makes every such combination an instruction (R23, R70), so every term of `Instr` is
well-formed by its type. What can be ill-formed is a machine's configuration (R5) and a launch (R203); a label name
(R82) and a canonical word (R73) have their checks beside the functions that read them (Machine/AsmTokens.lean,
Decode.lean). -/

namespace Sys2Proof

/-- `MEM_WORDS <= 2^31 - 32768` (R5, D4). -/
def Config.wf (c : Config) : Bool := decide (c.memWords ≤ maxMemWords)

/-- `NUM_LOADED <= MEM_WORDS`: the image fits the memory (R5, R203, D28). -/
def Config.imageFits (c : Config) (image : List Word) : Bool := decide (image.length ≤ c.memWords)

/-- The checks of an instruction: none can fail (R70), said as one predicate so that statements over well-formed
instructions can be read as written. -/
def Instr.wf : Instr → Bool
  | .add _ _ _ | .nor _ _ _ | .lw _ _ _ | .sw _ _ _ | .beq _ _ _ | .jalr _ _ | .halt | .noop => true

end Sys2Proof
end

