-- ==== Sys2Proof/Decode.lean ====
section
/-! DEFINITION. The decoder (spec/30_encoding.md R60 to R72, R76) and the encoder of an instruction (R73, R77), both
written from the one layout table of R61. Decoding is total: every Word is an instruction (R70). -/

namespace Sys2Proof

/-! ### Fields -/

/-- `w[hi:lo]` of R6: the bits `hi` down to `lo` as an unsigned number, `floor(u(w) / 2^lo) mod 2^(hi - lo + 1)`. -/
def slice (w : Word) (hi lo : Nat) : Nat := w.toNat / 2 ^ lo % 2 ^ (hi - lo + 1)

/-- The opcode numbers of R69: add=0, nor=1, lw=2, sw=3, beq=4, jalr=5, halt=6, noop=7. -/
def Opcode.number : Opcode → Nat
  | .add => 0
  | .nor => 1
  | .lw => 2
  | .sw => 3
  | .beq => 4
  | .jalr => 5
  | .halt => 6
  | .noop => 7

/-- The opcode of a 3-bit opcode number: all eight are assigned (R69, R70). -/
def Opcode.ofNumber : Fin 8 → Opcode
  | 0 => .add
  | 1 => .nor
  | 2 => .lw
  | 3 => .sw
  | 4 => .beq
  | 5 => .jalr
  | 6 => .halt
  | 7 => .noop

/-- `opcode = word[24:22]` (R62). -/
def opcodeOf (w : Word) : Opcode := .ofNumber (Fin.ofNat 8 (slice w 24 22))

/-- `regA = word[21:19]` (R63). -/
def regAOf (w : Word) : Reg := Fin.ofNat 8 (slice w 21 19)

/-- `regB = word[18:16]` (R64). -/
def regBOf (w : Word) : Reg := Fin.ofNat 8 (slice w 18 16)

/-- `field16 = word[15:0]` (R65). -/
def field16Of (w : Word) : Field16 := BitVec.ofNat 16 (slice w 15 0)

/-- `dest = word[2:0]` (R66; the low three bits of the field: D10, C3). -/
def destOf (w : Word) : Reg := Fin.ofNat 8 (slice w 2 0)

/-- `sext_32(f)` of R8 and R68: the Word with the two's-complement value of the 16-bit field. -/
def sext32 (f : Field16) : Word := f.signExtend 32

/-- The decoder block's outputs, all produced for every Word (R76). -/
structure DecoderOutputs where
  opcode : Opcode
  regA : Reg
  regB : Reg
  field16 : Field16
  dest : Reg
  offset : Word
  deriving DecidableEq, Repr

/-- The decoder as a combinational block of one input (R76). -/
def decoderOutputs (w : Word) : DecoderOutputs :=
  { opcode := opcodeOf w, regA := regAOf w, regB := regBOf w, field16 := field16Of w, dest := destOf w,
    offset := sext32 (field16Of w) }

/-- The instruction a Word is, given its opcode: the fields its format uses (R67). -/
def decodeAs (op : Opcode) (w : Word) : Instr :=
  match op with
  | .add => .add (regAOf w) (regBOf w) (destOf w)
  | .nor => .nor (regAOf w) (regBOf w) (destOf w)
  | .lw => .lw (regAOf w) (regBOf w) (field16Of w)
  | .sw => .sw (regAOf w) (regBOf w) (field16Of w)
  | .beq => .beq (regAOf w) (regBOf w) (field16Of w)
  | .jalr => .jalr (regAOf w) (regBOf w)
  | .halt => .halt
  | .noop => .noop

/-- The instruction a Word is (R70): bits 31:25 and the bits the format does not use are ignored (R71, R72). -/
def decode (w : Word) : Instr := decodeAs (opcodeOf w) w

/-! ### Encoder -/

/-- `Enc(op, a, b, f) = word(op * 2^22 + a * 2^19 + b * 2^16 + (f mod 65536))`, for any integer `f` (R77). -/
def enc (op : Opcode) (a b : Reg) (f : Int) : Word :=
  Word.ofInteger (op.number * 2 ^ 22 + a.val * 2 ^ 19 + b.val * 2 ^ 16 + f % 65536)

/-- The canonical word of an instruction (R73). -/
def encode : Instr → Word
  | .add a b d => enc .add a b d.val
  | .nor a b d => enc .nor a b d.val
  | .lw a b f => enc .lw a b f.toInt
  | .sw a b f => enc .sw a b f.toInt
  | .beq a b f => enc .beq a b f.toInt
  | .jalr a b => enc .jalr a b 0
  | .halt => enc .halt 0 0 0
  | .noop => enc .noop 0 0 0

/-- The bits below 25 that the format of an opcode ignores, as a mask (R67, R72). -/
def ignoredBits : Opcode → Word
  | .add | .nor => 0x0000FFF8#32
  | .lw | .sw | .beq => 0x00000000#32
  | .jalr => 0x0000FFFF#32
  | .halt | .noop => 0x003FFFFF#32

/-- A Word is canonical when every ignored bit of its format, bits 31:25 among them, is 0 (R73). -/
def canonical (w : Word) : Bool := w &&& (0xFE000000#32 ||| ignoredBits (opcodeOf w)) == 0#32

/-! ### The host's question -/

/-- The instruction the decoder reads from an instruction whose bits, numbered as spec/opcode_table.json numbers them,
are `w` below `nbits` and 0 above. An instruction is one 32-bit Word (R60), so more than 32 bits are no instruction. -/
def decodeTableWord (nbits w : Nat) : Option Instr :=
  if nbits ≤ 32 then some (decode (BitVec.ofNat 32 (w % 2 ^ nbits))) else none

end Sys2Proof
end

