-- ==== Sys2Proof/Machine/State.lean ====
section
/-! DEFINITION. The machine's whole state (spec/10_state.md), as plain data, its value after reset
(spec/70_reset_and_hazards.md R201), and the reasons a step can stop. -/

namespace Sys2Proof.Machine

/-- The state of the document's state machine, with the spec's third value (R27, D12). -/
inductive RunState where
  | running
  | halted
  | faulted
  deriving DecidableEq, Repr

/-- Which access an address fault belongs to (R181). -/
inductive AccessKind where
  | fetch
  | load
  | store
  deriving DecidableEq, Repr

/-- A fault record: the kind of fault, the access kind and the offending address (R29, R180, R184); no numeric codes
exist (D31). -/
inductive FaultRecord where
  /-- `InvalidAddress(kind, addr)` (R181): recorded by the step that fetches, loads or stores out of range. -/
  | invalidAddress (kind : AccessKind) (addr : Word)
  /-- `InvalidOpcode` (R182, D29): kept so that the document's taxonomy is complete; no Word raises it. -/
  | invalidOpcode
  deriving DecidableEq, Repr

/-- One listed word of memory: a word address and the Word there. The machine has word addresses only and 'a model must
not introduce a byte layout' (R44, D14; log entry 1). -/
abbrev WordCell := Nat × Word

/-- The memory: the words whose contents are determined, those of the image and those a `sw` has written (the 'touched'
memory of R208), by strictly rising address. An address that is not listed reads as the free value of its own (R52). -/
structure Memory where
  cells : List WordCell
  deriving DecidableEq, Repr

/-- The whole machine state: the summary table of spec/10_state.md and nothing else, but for `cfg`, the parameters of
the machine and of the run. -/
structure State where
  /-- The eight general registers `x[0]` to `x[7]`, none hardwired (R20, R22). -/
  x : Vector Word 8
  /-- The program counter, a word address; any Word may stand in it (R25, R26). -/
  pc : Word
  /-- The one memory, for fetch, load and store (R30, R41). -/
  mem : Memory
  /-- The loaded-word count, the bound of instruction fetch; constant after reset (R31). -/
  numLoaded : Nat
  /-- The run-state (R27). -/
  run : RunState
  /-- The number of instructions executed since reset, unbounded (R28). -/
  icount : Nat
  /-- Empty, or the record of the one fault (R29). -/
  faultInfo : Option FaultRecord
  /-- The open parameters `MEM_WORDS` and the run's power-on contents (R5, D4, D7; log entries 2 and 3). -/
  cfg : Config
  deriving DecidableEq, Repr

/-- Why a step does not exist. Both come from `step` alone, and both are safe: they stop exactly where R90 says that the
machine takes no step. An address fault is none of these: the step that raises it has a next state (R184). -/
inductive Fault where
  /-- Raised by `step` in a state whose run-state is Halted: the normal end of a run (R90, R205). Safe. -/
  | stoppedHalted
  /-- Raised by `step` in a state whose run-state is Faulted: the abnormal end (R90, R185, R205). Safe. -/
  | stoppedFaulted
  deriving DecidableEq, Repr

/-- Why an instruction has no meaning in this model. -/
inductive Refusal where
  /-- Raised by an arm of `exec` whose instruction has no meaning yet; no arm does. Safe. -/
  | notModelled (mnemonic : String)
  deriving DecidableEq, Repr

/-- The machine right after reset with the empty image: `NUM_LOADED = 0` is allowed (R203, D28), and a program is the
image a launch loads (log entry 4). Every field has the value of R201; `cfg` has the values of log entries 2 and 3. -/
def State.reset : State :=
  { x := Vector.replicate 8 0#32
    pc := 0#32
    mem := { cells := [] }
    numLoaded := 0
    run := .running
    icount := 0
    faultInfo := none
    cfg := Config.default }

end Sys2Proof.Machine
end

