-- ==== Sys2Proof/Machine/Ops.lean ====
section
/-! DEFINITION. The named operations over registers, memory, the run-state and the fault record. Every instruction's
meaning is written over these. -/

namespace Sys2Proof.Machine

/-! ### Registers -/

/-- `x[i]` (R8): no register is special (R22). -/
def State.readReg (s : State) (i : Reg) : Word := s.x[i]

/-- `x[i] <- v` (R8), register 0 like any other (R22). -/
def State.writeReg (s : State) (i : Reg) (v : Word) : State := { s with x := s.x.set i v }

/-! ### Memory as a canonical list -/

/-- The Word listed at address `a`, if there is one. -/
def cellsFind : List WordCell → Nat → Option Word
  | [], _ => none
  | (b, v) :: rest, a => if b = a then some v else cellsFind rest a

/-- The list with `v` at address `a`, in its place by address. -/
def cellsWrite : List WordCell → Nat → Word → List WordCell
  | [], a, v => [(a, v)]
  | (b, w) :: rest, a, v =>
    if b < a then (b, w) :: cellsWrite rest a v
    else if b = a then (a, v) :: rest
    else (a, v) :: (b, w) :: rest

/-- The canonical form: addresses strictly rise. What an unlisted address reads as is a free value that no entry can be
compared with, so a word once stored stays listed (log entry 3). -/
abbrev Memory.wf (m : Memory) : Prop := m.cells.Pairwise (fun c d => c.1 < d.1)

/-- The Word listed at an address, or none where nothing has determined it. -/
def Memory.find (m : Memory) (a : Nat) : Option Word := cellsFind m.cells a

/-- `mem[a] <- v`: the word at `a` alone. -/
def Memory.write (m : Memory) (a : Nat) (v : Word) : Memory := { cells := cellsWrite m.cells a v }

/-- `mem[a]`: the listed Word, or the free value of an address that neither the image nor a store has determined
(R30, R52). -/
def State.wordAt (s : State) (a : Nat) : Word := (s.mem.find a).getD (Config.unloadedWord s.cfg.powerOn a)

/-- `mem[a] <- v` in the state. -/
def State.storeAt (s : State) (a : Nat) (v : Word) : State := { s with mem := s.mem.write a v }

/-! ### The memory primitives -/

/-- The data bound of R46 and R47: `0 <= s(addr) < MEM_WORDS`. -/
abbrev State.inMemory (s : State) (addr : Word) : Prop := 0 ≤ addr.toInt ∧ addr.toInt < s.cfg.memWords

/-- The fetch bound of R91: `0 <= s(pc) < num_loaded`. -/
abbrev State.fetchable (s : State) : Prop := 0 ≤ s.pc.toInt ∧ s.pc.toInt < s.numLoaded

/-- The slot of `mem` a Word addresses: `s(addr)`, read where it is not negative (R46, R47). -/
def slot (addr : Word) : Nat := addr.toInt.toNat

/-- `MemRead(addr, 1)` (R46). -/
def State.memRead (s : State) (addr : Word) : Except FaultRecord Word :=
  if s.inMemory addr then .ok (s.wordAt (slot addr)) else .error (.invalidAddress .load addr)

/-- `MemWrite(addr, 1, v)` (R47). -/
def State.memWrite (s : State) (addr v : Word) : Except FaultRecord State :=
  if s.inMemory addr then .ok (s.storeAt (slot addr) v) else .error (.invalidAddress .store addr)

/-- The fetch of a step (R91): bounded by the loaded-word count, not by the memory capacity. -/
def State.fetch (s : State) : Except FaultRecord Word :=
  if s.fetchable then .ok (s.wordAt (slot s.pc)) else .error (.invalidAddress .fetch s.pc)

/-! ### The ends of a step -/

/-- The address of the following instruction, `pc +32 1` (R25). -/
def State.nextPc (s : State) : Word := s.pc + 1#32

/-- Completion (R94, R95): the new `pc` is written and the instruction is counted. -/
def State.complete (s : State) (newPc : Word) : State := { s with pc := newPc, icount := s.icount + 1 }

/-- `run <- Halted` (R27). -/
def State.halt (s : State) : State := { s with run := .halted }

/-- TAKING A FAULT (R184): `run <- Faulted`, `fault_info` records it, nothing else changes, so the fault is precise. No
state is saved, there is no handler, and there is no return (R185): only reset leaves Faulted. -/
def State.takeFault (s : State) (r : FaultRecord) : State := { s with run := .faulted, faultInfo := some r }

/-- `raise` (R8): the step ends in the fault. -/
def raise (s : State) (r : FaultRecord) : Host.Outcome State Fault Refusal := .next (s.takeFault r)

end Sys2Proof.Machine
end

