-- ==== Sys2Proof/Machine/Operands.lean ====
section
/-! DEFINITION. The operand forms: a register (Machine/Ops.lean `readReg`), base plus offset (R110) and the pc-relative
branch target (R120). The sign extension they share is `sext32` (Decode.lean, R68). -/

namespace Sys2Proof.Machine

/-- `addr = x[regA] +32 offset`: the one addressing mode of `lw` and `sw`, a word address; the base register is not
modified (R48, R110). -/
def State.effectiveAddress (s : State) (regA : Reg) (field16 : Field16) : Word := s.readReg regA + sext32 field16

/-- `pc +32 1 +32 offset`: the target of a taken `beq`, relative to the following instruction (R120). -/
def State.branchTarget (s : State) (field16 : Field16) : Word := s.nextPc + sext32 field16

end Sys2Proof.Machine
end

