-- ==== Sys2Proof/Machine/Arith.lean ====
section
/-! DEFINITION. `add` and `nor` (spec/41_arithmetic.md). -/

namespace Sys2Proof.Machine

/-- `add` (R100): the sum modulo 2^32, with no trap and no flag; both sources are read before the write (R94). -/
def execAdd (regA regB dest : Reg) (s : State) : Host.Outcome State Fault Refusal :=
  .next ((s.writeReg dest (s.readReg regA + s.readReg regB)).complete s.nextPc)

/-- `nor` (R101): the complement over all 32 bits of the OR. -/
def execNor (regA regB dest : Reg) (s : State) : Host.Outcome State Fault Refusal :=
  .next ((s.writeReg dest (~~~(s.readReg regA ||| s.readReg regB))).complete s.nextPc)

end Sys2Proof.Machine
end

