-- ==== Sys2Proof/Machine/Flags.lean ====
section
/-! DEFINITION. The machine has no flags, condition codes or predicate registers (R32): no instruction leaves a status
bit behind, so there is no flag computation to write. The one condition is the comparison `beq` makes itself. -/

namespace Sys2Proof.Machine

/-- The condition of `beq`: equality of all 32 bits (R120). -/
def State.regsEqual (s : State) (regA regB : Reg) : Bool := s.readReg regA == s.readReg regB

end Sys2Proof.Machine
end

