-- ==== Sys2Proof/Machine/Control.lean ====
section
/-! DEFINITION. `beq` and `jalr` (spec/43_control_transfer.md). A target is not checked here: the next fetch does. -/

namespace Sys2Proof.Machine

/-- `beq` (R120). -/
def execBeq (regA regB : Reg) (field16 : Field16) (s : State) : Host.Outcome State Fault Refusal :=
  .next (s.complete (if s.regsEqual regA regB then s.branchTarget field16 else s.nextPc))

/-- `jalr` (R121): the target is read before the link is written, so `regA = regB` jumps to the old value (R210). -/
def execJalr (regA regB : Reg) (s : State) : Host.Outcome State Fault Refusal :=
  .next ((s.writeReg regB s.nextPc).complete (s.readReg regA))

end Sys2Proof.Machine
end

