-- ==== Sys2Proof/Machine/LoadStore.lean ====
section
/-! DEFINITION. `lw` and `sw` (spec/42_load_store.md). -/

namespace Sys2Proof.Machine

/-- `lw` (R111): the address is formed from the old base; out of range, the step faults and nothing is written. -/
def execLw (regA regB : Reg) (field16 : Field16) (s : State) : Host.Outcome State Fault Refusal :=
  match s.memRead (s.effectiveAddress regA field16) with
  | .ok v => .next ((s.writeReg regB v).complete s.nextPc)
  | .error r => raise s r

/-- `sw` (R112): `regB` is a source; out of range, the step faults and memory is unchanged. -/
def execSw (regA regB : Reg) (field16 : Field16) (s : State) : Host.Outcome State Fault Refusal :=
  match s.memWrite (s.effectiveAddress regA field16) (s.readReg regB) with
  | .ok t => .next (t.complete s.nextPc)
  | .error r => raise s r

end Sys2Proof.Machine
end

