-- ==== Sys2Proof/Machine/System.lean ====
section
/-! DEFINITION. `halt` and `noop` (spec/44_halt_noop.md). -/

namespace Sys2Proof.Machine

/-- `halt` (R130): `pc` is incremented, the instruction is counted, and the run-state becomes Halted. -/
def execHalt (s : State) : Host.Outcome State Fault Refusal := .next (s.complete s.nextPc).halt

/-- `noop` (R131): `pc` is incremented and the instruction is counted. -/
def execNoop (s : State) : Host.Outcome State Fault Refusal := .next (s.complete s.nextPc)

end Sys2Proof.Machine
end

