-- ==== Sys2Proof/Machine/Dispatch.lean ====
section
/-! DEFINITION. Dispatch (R93): one arm per instruction, the meaning its rule gives it. -/

namespace Sys2Proof.Machine

def exec (i : Instr) (s : State) : Host.Outcome State Fault Refusal :=
  match i with
  | .add regA regB dest => Sys2Proof.Machine.execAdd regA regB dest s
  | .nor regA regB dest => Sys2Proof.Machine.execNor regA regB dest s
  | .lw regA regB field16 => Sys2Proof.Machine.execLw regA regB field16 s
  | .sw regA regB field16 => Sys2Proof.Machine.execSw regA regB field16 s
  | .beq regA regB field16 => Sys2Proof.Machine.execBeq regA regB field16 s
  | .jalr regA regB => Sys2Proof.Machine.execJalr regA regB s
  | .halt => Sys2Proof.Machine.execHalt s
  | .noop => Sys2Proof.Machine.execNoop s

end Sys2Proof.Machine
end

