-- ==== Sys2Proof/Machine/Step.lean ====
section
/-! DEFINITION. The step (spec/40_execution_cycle.md R90 to R96) and the placing of one instruction for a test. -/

namespace Sys2Proof.Machine

/-- One step (R96): none unless the machine is Running (R90); the fetch check comes first (R91, R95); decoding cannot
fail (R92); then the instruction's own transition, which counts itself or faults (R93, R95). -/
def step (s : State) : Host.Outcome State Fault Refusal :=
  match s.run with
  | .halted => .fault .stoppedHalted
  | .faulted => .fault .stoppedFaulted
  | .running =>
    match s.fetch with
    | .error r => raise s r
    | .ok w => exec (decode w) s

/-- The state with the Word whose low `nbits` bits are those of `w` where the next fetch reads, and all that this fetch
needs: the word is part of the loaded image (the loaded-word count reaches past it), and the machine is Running with no
fault recorded. It stands for the launch that loads a program (log entry 4). A `pc` that addresses no word of memory is
moved to 0, the entry point (R202), since nothing can be placed there; from State.reset only memory and the loaded-word
count change. -/
def State.withFetchWord (s : State) (nbits w : Nat) : State :=
  let p : Word := if s.inMemory s.pc then s.pc else 0#32
  { s with
    pc := p
    mem := s.mem.write (slot p) (BitVec.ofNat 32 (w % 2 ^ nbits))
    numLoaded := max s.numLoaded (slot p + 1)
    run := .running
    faultInfo := none }

end Sys2Proof.Machine
end

