-- ==== Sys2Proof/Machine/AsmTokens.lean ====
section
/-! DEFINITION. The tokens of a parsed assembly line (spec/30_encoding.md R80 to R82). -/

namespace Sys2Proof.Machine

/-- The value of a decimal digit `0`-`9`. -/
def digitValue (c : Char) : Option Nat := if 48 ≤ c.toNat ∧ c.toNat ≤ 57 then some (c.toNat - 48) else none

/-- The number a run of decimal digits spells after `acc`; none where a character is no digit. -/
def digitsValue : Nat → List Char → Option Nat
  | acc, [] => some acc
  | acc, c :: cs =>
    match digitValue c with
    | some d => digitsValue (10 * acc + d) cs
    | none => none

/-- One or more digits. -/
def unsignedValue : List Char → Option Nat
  | [] => none
  | c :: cs => digitsValue 0 (c :: cs)

/-- The value of a numeric token: an optional sign, then one or more decimal digits and nothing else; none for a symbolic
token, the empty string included (R81, D18). -/
def numericValue (token : String) : Option Int :=
  match token.toList with
  | '+' :: cs => (unsignedValue cs).map fun n => (n : Int)
  | '-' :: cs => (unsignedValue cs).map fun n => -(n : Int)
  | cs => (unsignedValue cs).map fun n => (n : Int)

/-- A letter `A`-`Z`, `a`-`z`. -/
def isLetter (c : Char) : Bool :=
  (decide (65 ≤ c.toNat) && decide (c.toNat ≤ 90)) || (decide (97 ≤ c.toNat) && decide (c.toNat ≤ 122))

/-- A letter or a decimal digit. -/
def isAlphanumeric (c : Char) : Bool := isLetter c || (digitValue c).isSome

/-- A valid label name: 1 to 6 letters or digits, the first a letter (R82, D17). -/
def validLabel (name : String) : Bool :=
  match name.toList with
  | [] => false
  | c :: cs => isLetter c && cs.all isAlphanumeric && decide (cs.length ≤ 5)

/-- The nine mnemonics, matched exactly and in lower case (R80, R150, D19). -/
def mnemonicOf (token : String) : Option Mnemonic :=
  if token = "add" then some (.instr .add)
  else if token = "nor" then some (.instr .nor)
  else if token = "lw" then some (.instr .lw)
  else if token = "sw" then some (.instr .sw)
  else if token = "beq" then some (.instr .beq)
  else if token = "jalr" then some (.instr .jalr)
  else if token = "halt" then some (.instr .halt)
  else if token = "noop" then some (.instr .noop)
  else if token = ".fill" then some .fill
  else none

end Sys2Proof.Machine
end

