-- ==== Sys2Proof/Machine/Assembler.lean ====
section
/-! DEFINITION. The encoder and the label table (spec/45_encoder_labels_fill.md): a pure function from parsed lines to
the image, whole or not at all (R140, R162). -/

namespace Sys2Proof.Machine

/-! ### The label table -/

/-- A finite map from label name to a 32-bit signed integer (R35): the value of an entry `v` is `v.toInt`. Empty before
pass 1. -/
abbrev LabelTable := List (String × Word)

/-- The entry of a name, if the table has one. -/
def tableFind : LabelTable → String → Option Word
  | [], _ => none
  | (n, v) :: rest, name => if n = name then some v else tableFind rest name

/-- `insert(name, value)` (R143): the name is checked before the duplicate, and an entry never changes. -/
def tableInsert (table : LabelTable) (name : String) (value : Word) : Except AsmError LabelTable :=
  if validLabel name then
    match tableFind table name with
    | some _ => .error .duplicateLabel
    | none => .ok ((name, value) :: table)
  else .error .invalidLabel

/-- `resolve(name)` (R144). -/
def resolve (table : LabelTable) (name : String) : Except AsmError Word :=
  match tableFind table name with
  | some v => .ok v
  | none => .error .undefinedLabel

/-! ### Pass 1 -/

/-- The value a `.fill` operand stands for against a table, all 32 bits of it: a literal in the signed 32-bit range, or a
label's value (R147, R157). -/
def fillValue (table : LabelTable) (token : String) : Except AsmError Word :=
  match numericValue token with
  | some k => if -2 ^ 31 ≤ k ∧ k ≤ 2 ^ 31 - 1 then .ok (Word.ofInteger k) else .error .fillRange
  | none => resolve table token

/-- A line address as the value of a label (R146(a)): the address itself, where a 32-bit signed integer holds it (R35).
Beyond, the spec states no value, and it is a free value (log entry 11). -/
def addressValue (i : Nat) : Word := if i < 2 ^ 31 then BitVec.ofNat 32 i else Config.labelPastRange i

/-- The value of a label on line `i` (R146): the line's address, or on a `.fill` line the filled value against the labels
of the earlier lines (R147, D20). -/
def labelValue (i : Nat) (table : LabelTable) (line : Line) : Except AsmError Word :=
  if line.opcode = ".fill" then fillValue table line.arg0 else .ok (addressValue i)

/-- Pass 1 on one line (R145): the label's value is computed before its name is checked (R160). -/
def collectLabel (i : Nat) (table : LabelTable) (line : Line) : Except AsmError LabelTable :=
  if line.label = "" then .ok table
  else
    match labelValue i table line with
    | .error e => .error e
    | .ok v => tableInsert table line.label v

/-- Pass 1 over the lines from address `i` on (R145). -/
def pass1 : Nat → LabelTable → List Line → Except AsmError LabelTable
  | _, table, [] => .ok table
  | i, table, line :: lines =>
    match collectLabel i table line with
    | .error e => .error e
    | .ok table' => pass1 (i + 1) table' lines

/-! ### Pass 2 -/

/-- A `regA` or `regB` operand (R152). -/
def regOperand (token : String) : Except AsmError Reg :=
  match numericValue token with
  | none => .error .nonIntegerRegister
  | some k => if 0 ≤ k ∧ k ≤ 7 then .ok (Fin.ofNat 8 k.toNat) else .error .registerRange

/-- The destination operand of `add` and `nor`: any integer, never a label, not range-checked (R153, D22). -/
def destOperand (token : String) : Except AsmError Int :=
  match numericValue token with
  | none => .error .nonIntegerRegister
  | some d => .ok d

/-- The offset operand of `lw` and `sw` before its range check: the literal, or the label's signed value (R154, R155). -/
def absoluteOperand (table : LabelTable) (token : String) : Except AsmError Int :=
  match numericValue token with
  | some o => .ok o
  | none => (resolve table token).map fun v => v.toInt

/-- The offset operand of `beq` on line `i` before its range check: the literal as written, or the label's signed value made
relative to the following line, in unbounded integers (R154, R156). -/
def relativeOperand (i : Nat) (table : LabelTable) (token : String) : Except AsmError Int :=
  match numericValue token with
  | some o => .ok o
  | none => (resolve table token).map fun v => v.toInt - (i + 1)

/-- The range check of an offset, literal or substituted (R154, D23). -/
def checkOffset (o : Int) : Except AsmError Int :=
  if -32768 ≤ o ∧ o ≤ 32767 then .ok o else .error .offsetRange

/-- An R-type line (R153). The operands are checked left to right (R151). -/
def encodeRType (op : Opcode) (line : Line) : Except AsmError Word := do
  let a ← regOperand line.arg0
  let b ← regOperand line.arg1
  let d ← destOperand line.arg2
  .ok (enc op a b d)

/-- An I-type line, given its third operand's value (R154). -/
def encodeIType (op : Opcode) (line : Line) (offset : Except AsmError Int) : Except AsmError Word := do
  let a ← regOperand line.arg0
  let b ← regOperand line.arg1
  let o ← offset
  let o ← checkOffset o
  .ok (enc op a b o)

/-- A `jalr` line (R158): the third operand is not examined. -/
def encodeJType (line : Line) : Except AsmError Word := do
  let a ← regOperand line.arg0
  let b ← regOperand line.arg1
  .ok (enc .jalr a b 0)

/-- Pass 2 on line `i` with the finished table (R149 to R159). The label plays no part. -/
def encodeLine (i : Nat) (table : LabelTable) (line : Line) : Except AsmError Word :=
  match mnemonicOf line.opcode with
  | none => .error .unknownOpcode
  | some .fill => fillValue table line.arg0
  | some (.instr .add) => encodeRType .add line
  | some (.instr .nor) => encodeRType .nor line
  | some (.instr .lw) => encodeIType .lw line (absoluteOperand table line.arg2)
  | some (.instr .sw) => encodeIType .sw line (absoluteOperand table line.arg2)
  | some (.instr .beq) => encodeIType .beq line (relativeOperand i table line.arg2)
  | some (.instr .jalr) => encodeJType line
  | some (.instr .halt) => .ok (enc .halt 0 0 0)
  | some (.instr .noop) => .ok (enc .noop 0 0 0)

/-- Pass 2 over the lines from address `i` on (R149). -/
def pass2 : Nat → LabelTable → List Line → Except AsmError (List Word)
  | _, _, [] => .ok []
  | i, table, line :: lines =>
    match encodeLine i table line with
    | .error e => .error e
    | .ok w =>
      match pass2 (i + 1) table lines with
      | .error e => .error e
      | .ok ws => .ok (w :: ws)

/-- The encoder (R140, R142): pass 2 starts only when pass 1 has finished without error, from the empty table; the result
is the whole image or one error (R160, R162). -/
def assemble (lines : List Line) : Except AsmError (List Word) :=
  match pass1 0 [] lines with
  | .error e => .error e
  | .ok table => pass2 0 table lines

/-- The exit status that stands for an assembly: 0 for an image, 1 for an error (R189). -/
def asmExitStatus : Except AsmError (List Word) → Nat
  | .ok _ => 0
  | .error _ => 1

/-! ### The image as decimals -/

/-- The decimal of a Word in the machine-code file: its signed value (R164, D26). -/
def imageDecimals (image : List Word) : List Int := image.map fun w => w.toInt

/-- The Word a decimal of the file stands for (R164); what a reader does with other text is out of scope. -/
def wordOfDecimal (d : Int) : Option Word :=
  if -2 ^ 31 ≤ d ∧ d ≤ 2 ^ 31 - 1 then some (Word.ofInteger d) else none

end Sys2Proof.Machine
end

