-- ==== Sys2Proof/Machine/Launch.lean ====
section
/-! DEFINITION. Reset with an image: the loader's action (spec/70_reset_and_hazards.md R200 to R203). It is the host's
and is complete before the first step. -/

namespace Sys2Proof.Machine

/-- Why a launch is refused; a refused launch makes no machine. -/
inductive LaunchError where
  /-- `MEM_WORDS` is above the limit the spec puts on it (R5, D4). -/
  | memoryTooLarge
  /-- `NUM_LOADED > MEM_WORDS` (R203, D28, U14). -/
  | imageTooLong
  deriving DecidableEq, Repr

/-- The image 'in program order' from address `a` on (R203). -/
def imageCells : Nat → List Word → List WordCell
  | _, [] => []
  | a, w :: ws => (a, w) :: imageCells (a + 1) ws

/-- The reset state of a machine with parameters `cfg` and the image `image` (R201): `mem[i] = image[i]` below NUM_LOADED,
and the words above it unspecified. -/
def State.loaded (cfg : Config) (image : List Word) : State :=
  { x := Vector.replicate 8 0#32
    pc := 0#32
    mem := { cells := imageCells 0 image }
    numLoaded := image.length
    run := .running
    icount := 0
    faultInfo := none
    cfg := cfg }

/-- The launch (R203): refused when a parameter is out of its range or the image does not fit; an empty image is
allowed. -/
def launch (cfg : Config) (image : List Word) : Except LaunchError State :=
  if !cfg.wf then .error .memoryTooLarge
  else if !cfg.imageFits image then .error .imageTooLong
  else .ok (State.loaded cfg image)

end Sys2Proof.Machine
end

