-- ==== Sys2Proof/Machine/Run.lean ====
section
/-! DEFINITION. The run and what the host reads at its end (R97, R205, R208). -/

namespace Sys2Proof.Machine

/-- The state after `n` iterations of the step loop, which stops when no step exists (R90, R97). -/
def State.runFor : Nat → State → State
  | 0, s => s
  | n + 1, s =>
    match step s with
    | .next t => t.runFor n
    | .fault _ => s
    | .refused _ => s

/-- The observable result of a run (R208, D30). The cells listed in `mem` are the image's words and the words the program
stored to, the 'touched memory'; a claim about any other word is a claim about an unspecified value. -/
structure Observation where
  run : RunState
  faultInfo : Option FaultRecord
  icount : Nat
  pc : Word
  x : Vector Word 8
  mem : Memory
  deriving DecidableEq, Repr

/-- The report of a state (R28, R208). -/
def State.observe (s : State) : Observation :=
  { run := s.run, faultInfo := s.faultInfo, icount := s.icount, pc := s.pc, x := s.x, mem := s.mem }

/-- What `n` steps of a run show: the observation where the run has ended, and none where it is not finished: exhausted
fuel is never an end state (R97). -/
def State.result (n : Nat) (s : State) : Option Observation :=
  match (s.runFor n).run with
  | .running => none
  | .halted | .faulted => some (s.runFor n).observe

/-- The exit status that stands for the end of a run: 0 for Halted, 1 for Faulted (R189). -/
def RunState.exitStatus : RunState → Option Nat
  | .running => none
  | .halted => some 0
  | .faulted => some 1

end Sys2Proof.Machine
end

