-- ==== Sys2Proof/Safety.lean ====
section
/-! DEFINITION. What the claims speak of: the invariant of the machine, what counts as a safe run, what an instruction may
change, and the step as the spec lists it (R96). -/

namespace Sys2Proof.Machine

/-! ### The invariant -/

/-- A fault record says the truth about the state it stands in. Since a fault changes nothing else (R184), that state
still shows the access that faulted (R181); no state records an invalid opcode (R182). -/
def FaultJustified (s : State) : FaultRecord → Prop
  | .invalidAddress .fetch addr => addr = s.pc ∧ ¬ s.fetchable
  | .invalidAddress .load addr =>
    s.fetchable ∧ ¬ s.inMemory addr ∧
      ∃ a b f, decode (s.wordAt (slot s.pc)) = .lw a b f ∧ addr = s.effectiveAddress a f
  | .invalidAddress .store addr =>
    s.fetchable ∧ ¬ s.inMemory addr ∧
      ∃ a b f, decode (s.wordAt (slot s.pc)) = .sw a b f ∧ addr = s.effectiveAddress a f
  | .invalidOpcode => False

/-- A halted machine stands just after the `halt` word it executed, inside the image (R130, R205). -/
def HaltJustified (s : State) : Prop :=
  1 ≤ s.icount ∧ ∃ a, a < s.numLoaded ∧ s.pc = BitVec.ofNat 32 (a + 1) ∧ decode (s.wordAt a) = .halt

/-- The invariant every step keeps, from every state that meets it. -/
structure State.Inv (s : State) : Prop where
  /-- The parameter is in its range (R5, D4). -/
  configOk : s.cfg.wf = true
  /-- `num_loaded <= MEM_WORDS` (R5). -/
  loadedFits : s.numLoaded ≤ s.cfg.memWords
  /-- The memory is in its canonical form. -/
  memoryWf : s.mem.wf
  /-- No word outside `0 .. MEM_WORDS-1` exists (R30, R40). -/
  memoryInside : ∀ a, s.mem.find a ≠ none → a < s.cfg.memWords
  /-- Every word of the image is determined, so no fetch reads a free value (R30). -/
  imageListed : ∀ a, a < s.numLoaded → s.mem.find a ≠ none
  /-- `fault_info` is empty exactly while no fault has been taken (R27, R29). -/
  faultRecorded : s.run = .faulted ↔ s.faultInfo ≠ none
  /-- The record says which access failed (R181). -/
  faultJustified : ∀ r, s.faultInfo = some r → FaultJustified s r
  /-- Halted only by a `halt` (R27, R205). -/
  haltJustified : s.run = .halted → HaltJustified s

/-! ### Safe runs -/

/-- The run from `s` ends normally (R205). -/
def State.EndsHalted (s : State) : Prop := ∃ n, (s.runFor n).run = .halted

/-- No step of the run from `s` faults; a run that never ends may be safe too (R97). -/
def State.NeverFaults (s : State) : Prop := ∀ n, (s.runFor n).run ≠ .faulted

/-! ### What an instruction may change -/

/-- Every register but those of `ds` reads as before. -/
def State.SameRegsExcept (ds : List Reg) (s t : State) : Prop := ∀ r, r ∉ ds → t.readReg r = s.readReg r

/-- Every word of memory but those at the addresses of `cs` reads as before. -/
def State.SameMemoryExcept (cs : List Nat) (s t : State) : Prop := ∀ a, a ∉ cs → t.wordAt a = s.wordAt a

/-- The loaded-word count, the fault record and the parameters are as before, and the instruction is counted: what every
completed instruction has in common (R28, R31, R95). -/
def State.Counted (s t : State) : Prop :=
  t.numLoaded = s.numLoaded ∧ t.faultInfo = s.faultInfo ∧ t.cfg = s.cfg ∧ t.icount = s.icount + 1

/-- The register an instruction writes, if any (R23). -/
def destinationOf : Instr → Option Reg
  | .add _ _ d => some d
  | .nor _ _ d => some d
  | .lw _ b _ => some b
  | .sw _ _ _ => none
  | .beq _ _ _ => none
  | .jalr _ b => some b
  | .halt => none
  | .noop => none

/-- An instruction that makes no data access (R42). -/
def noDataAccess : Instr → Bool
  | .add _ _ _ => true
  | .nor _ _ _ => true
  | .lw _ _ _ => false
  | .sw _ _ _ => false
  | .beq _ _ _ => true
  | .jalr _ _ => true
  | .halt => true
  | .noop => true

/-- The state with other power-on contents of unloaded memory. -/
def State.withPowerOn (s : State) (p : Nat) : State := { s with cfg := { s.cfg with powerOn := p } }

/-! ### The step as the spec lists it -/

/-- The three bits `hi` down to `hi - 2` of a word as a register number, cut from the word directly. -/
def regField (w : Word) (lo : Nat) : Reg := (w.extractLsb' lo 3).toFin

/-- The `case opcode of` lines of R96's listing, for the word fetched: written over the state's fields and the word's bits
alone, without the operations the meanings share. -/
def listedCase (word : Word) (s : State) : State :=
  let regA := regField word 19
  let regB := regField word 16
  let dest := regField word 0
  let offset : Word := (word.extractLsb' 0 16).signExtend 32
  let next := s.pc + 1#32
  let addr := s.x[regA] + offset
  if word.extractLsb' 22 3 = 0#3 then
    { s with x := s.x.set dest (s.x[regA] + s.x[regB]), pc := next, icount := s.icount + 1 }
  else if word.extractLsb' 22 3 = 1#3 then
    { s with x := s.x.set dest (~~~(s.x[regA] ||| s.x[regB])), pc := next, icount := s.icount + 1 }
  else if word.extractLsb' 22 3 = 2#3 then
    if 0 ≤ addr.toInt ∧ addr.toInt < s.cfg.memWords then
      { s with x := s.x.set regB (s.wordAt addr.toNat), pc := next, icount := s.icount + 1 }
    else { s with run := .faulted, faultInfo := some (.invalidAddress .load addr) }
  else if word.extractLsb' 22 3 = 3#3 then
    if 0 ≤ addr.toInt ∧ addr.toInt < s.cfg.memWords then
      { s with mem := s.mem.write addr.toNat s.x[regB], pc := next, icount := s.icount + 1 }
    else { s with run := .faulted, faultInfo := some (.invalidAddress .store addr) }
  else if word.extractLsb' 22 3 = 4#3 then
    { s with pc := if s.x[regA] = s.x[regB] then next + offset else next, icount := s.icount + 1 }
  else if word.extractLsb' 22 3 = 5#3 then
    { s with x := s.x.set regB next, pc := s.x[regA], icount := s.icount + 1 }
  else if word.extractLsb' 22 3 = 6#3 then
    { s with pc := next, run := .halted, icount := s.icount + 1 }
  else { s with pc := next, icount := s.icount + 1 }

/-- The listing of R96, for a state with `run = Running`. -/
def listing (s : State) : State :=
  if 0 ≤ s.pc.toInt ∧ s.pc.toInt < s.numLoaded then listedCase (s.wordAt s.pc.toNat) s
  else { s with run := .faulted, faultInfo := some (.invalidAddress .fetch s.pc) }

end Sys2Proof.Machine
end

