-- ==== Sys2Proof/Certificates/Slice0/Obligations.lean ====
section
/-! DEFINITION. The statements for the provers, from the numbered rules of spec/. -/

open Sys2Proof Sys2Proof.Machine

/-! ### The decoder and the encoder of an instruction -/

/-- R62 to R66: each output of the decoder is the bit slice the layout gives it. -/
def Obligations.DecoderFieldsAreTheBitSlices : Prop :=
  ∀ w : Word,
    (decoderOutputs w).opcode.number = (w.extractLsb 24 22).toNat ∧
    (decoderOutputs w).regA.val = (w.extractLsb 21 19).toNat ∧
    (decoderOutputs w).regB.val = (w.extractLsb 18 16).toNat ∧
    (decoderOutputs w).field16.toNat = (w.extractLsb 15 0).toNat ∧
    (decoderOutputs w).dest.val = (w.extractLsb 2 0).toNat

/-- R68: the offset is the two's-complement value of the 16-bit field, from -32768 to 32767, not scaled, added to the base
of `lw` and `sw` and to `pc + 1` of `beq`; `add` and `nor` take `dest` alone from the field. -/
def Obligations.OffsetIsTheSignedField : Prop :=
  (∀ w : Word,
    (decoderOutputs w).offset.toInt =
      (if (field16Of w).toNat < 32768 then ((field16Of w).toNat : Int) else (field16Of w).toNat - 65536) ∧
    -32768 ≤ (decoderOutputs w).offset.toInt ∧ (decoderOutputs w).offset.toInt ≤ 32767) ∧
  (∀ (s : State) (a : Reg) (w : Word),
    s.effectiveAddress a (field16Of w) = s.readReg a + (decoderOutputs w).offset ∧
    s.branchTarget (field16Of w) = s.pc + 1#32 + (decoderOutputs w).offset) ∧
  (∀ w : Word,
    (opcodeOf w = .add → decode w = .add (decoderOutputs w).regA (decoderOutputs w).regB (decoderOutputs w).dest) ∧
    (opcodeOf w = .nor → decode w = .nor (decoderOutputs w).regA (decoderOutputs w).regB (decoderOutputs w).dest))

/-- R69: a Word is an instruction of the map iff its bits under the mask are the match, and its operands are the bits
the encoding string shows; the opcode numbers are the fixed ones. -/
def Obligations.OpcodeMapMaskAndMatch : Prop :=
  (Opcode.number .add = 0 ∧ Opcode.number .nor = 1 ∧ Opcode.number .lw = 2 ∧ Opcode.number .sw = 3 ∧
   Opcode.number .beq = 4 ∧ Opcode.number .jalr = 5 ∧ Opcode.number .halt = 6 ∧ Opcode.number .noop = 7) ∧
  ∀ w : Word,
    (w &&& 0x01C00000#32 = 0x00000000#32 ↔ decode w = .add (regField w 19) (regField w 16) (regField w 0)) ∧
    (w &&& 0x01C00000#32 = 0x00400000#32 ↔ decode w = .nor (regField w 19) (regField w 16) (regField w 0)) ∧
    (w &&& 0x01C00000#32 = 0x00800000#32 ↔ decode w = .lw (regField w 19) (regField w 16) (w.extractLsb' 0 16)) ∧
    (w &&& 0x01C00000#32 = 0x00C00000#32 ↔ decode w = .sw (regField w 19) (regField w 16) (w.extractLsb' 0 16)) ∧
    (w &&& 0x01C00000#32 = 0x01000000#32 ↔ decode w = .beq (regField w 19) (regField w 16) (w.extractLsb' 0 16)) ∧
    (w &&& 0x01C00000#32 = 0x01400000#32 ↔ decode w = .jalr (regField w 19) (regField w 16)) ∧
    (w &&& 0x01C00000#32 = 0x01800000#32 ↔ decode w = .halt) ∧
    (w &&& 0x01C00000#32 = 0x01C00000#32 ↔ decode w = .noop)

/-- R71 and R72: bits 31:25 and the bits a format does not use change nothing; the encoder writes bits 31:25 as 0; the
spec's two examples. -/
def Obligations.IgnoredBitsChangeNothing : Prop :=
  (∀ w v : Word,
    (w.extractLsb 24 0 = v.extractLsb 24 0 → decode w = decode v) ∧
    (opcodeOf w = .add ∨ opcodeOf w = .nor →
      w.extractLsb 24 16 = v.extractLsb 24 16 → w.extractLsb 2 0 = v.extractLsb 2 0 → decode w = decode v) ∧
    (opcodeOf w = .jalr → w.extractLsb 24 16 = v.extractLsb 24 16 → decode w = decode v) ∧
    (opcodeOf w = .halt ∨ opcodeOf w = .noop → w.extractLsb 24 22 = v.extractLsb 24 22 → decode w = decode v)) ∧
  (∀ i : Instr, (encode i).extractLsb 31 25 = 0#7) ∧
  decode 0xFFFFFFFF#32 = .noop ∧
  encodeLine 0 [] ⟨"", "add", "1", "2", "9"⟩ = .ok 0x000A0009#32 ∧ decode 0x000A0009#32 = .add 1 2 1

/-- R73: decoding the canonical word of an instruction gives the instruction back, with every operand at every value. -/
def Obligations.DecodeOfEncodeIsTheInstruction : Prop :=
  ∀ i : Instr, i.wf = true → decode (encode i) = i

/-- R73: a Word is canonical exactly when it is the word its instruction encodes to. -/
def Obligations.EncodeOfDecodeIsTheCanonicalWord : Prop :=
  ∀ w : Word, canonical w = true ↔ encode (decode w) = w

/-- R78, the agreement law, for every operand and every integer field. -/
def Obligations.AgreementOfEncAndDecoder : Prop :=
  ∀ (op : Opcode) (a b : Reg) (f : Int),
    (decoderOutputs (enc op a b f)).opcode = op ∧
    (decoderOutputs (enc op a b f)).regA = a ∧
    (decoderOutputs (enc op a b f)).regB = b ∧
    ((decoderOutputs (enc op a b f)).field16.toNat : Int) = f % 65536 ∧
    ((decoderOutputs (enc op a b f)).dest.val : Int) = f % 8 ∧
    (-32768 ≤ f ∧ f ≤ 32767 → (decoderOutputs (enc op a b f)).offset.toInt = f)

/-- Words written out by the spec (95_test_vectors.md V3, V4, V6, V8, V10 to V17) decode to what it says they are. -/
def Obligations.WordsOfTheSpecDecode : Prop :=
  decode 0x000A0003#32 = .add 1 2 3 ∧ decode 0x000A0009#32 = .add 1 2 1 ∧ decode 0x005C0005#32 = .nor 3 4 5 ∧
  decode 0x0093FFFF#32 = .lw 2 3 (-1) ∧ decode 0x00CA8000#32 = .sw 1 2 (-32768) ∧
  decode 0x0100FFFD#32 = .beq 0 0 (-3) ∧ decode 0x01770000#32 = .jalr 6 7 ∧ decode 0x0177ABCD#32 = .jalr 6 7 ∧
  decode 0x01800000#32 = .halt ∧ decode 0x01BFFFFF#32 = .halt ∧ decode 0x01C00000#32 = .noop ∧
  decode 0xFFFFFFFF#32 = .noop

/-! ### The step, its faults and its end -/

/-- R91 to R93: a running machine whose pc addresses a word of the image executes the instruction that word decodes to,
and nothing is added around it. -/
def Obligations.StepRunsTheDecodedInstruction : Prop :=
  ∀ (s : State) (i : Instr), s.run = .running → 0 ≤ s.pc.toInt → s.pc.toInt < s.numLoaded →
    decode (s.wordAt s.pc.toNat) = i → i.wf = true → step s = exec i s

/-- R96: the step of a running machine is the listing, for every state. -/
def Obligations.StepIsTheListing : Prop :=
  ∀ s : State, s.run = .running → step s = .next (listing s)

/-- R91: a pc outside the loaded image faults at fetch, whatever memory holds; inside it, the word at pc is read; a `halt`
in the last word of the image does not fault although the pc it leaves is not fetchable. -/
def Obligations.FetchOutsideTheImageFaults : Prop :=
  ∀ s : State, s.run = .running →
    (0 ≤ s.pc.toInt ∧ s.pc.toInt < s.numLoaded → s.fetch = .ok (s.wordAt s.pc.toNat)) ∧
    (s.pc.toInt < 0 ∨ (s.numLoaded : Int) ≤ s.pc.toInt →
      step s = .next { s with run := .faulted, faultInfo := some (.invalidAddress .fetch s.pc) }) ∧
    (0 ≤ s.pc.toInt → s.pc.toInt + 1 = s.numLoaded → decode (s.wordAt s.pc.toNat) = .halt →
      ∃ t, step s = .next t ∧ t.run = .halted ∧ t.faultInfo = s.faultInfo ∧ t.pc = BitVec.ofNat 32 s.numLoaded)

/-- R90, R193: a Running machine always has a next state; a Halted or Faulted one has none, and a run changes it no more. -/
def Obligations.StepExistsExactlyWhileRunning : Prop :=
  ∀ s : State,
    (s.run = .running → ∃ t, step s = .next t) ∧
    (s.run ≠ .running → (∀ t, step s ≠ .next t) ∧ ∀ n, s.runFor n = s)

/-- R95: a step either completes and is counted, or faults and changes neither a register nor memory nor pc nor the count;
never both. -/
def Obligations.StepCompletesOrFaultsNeverBoth : Prop :=
  ∀ s t : State, s.run = .running → step s = .next t →
    (t.run ≠ .faulted ∧ t.icount = s.icount + 1 ∧ t.faultInfo = s.faultInfo) ∨
    (t.run = .faulted ∧ t.x = s.x ∧ t.mem = s.mem ∧ t.pc = s.pc ∧ t.icount = s.icount ∧
      ∃ r, t.faultInfo = some r ∧ (¬ s.fetchable → r = .invalidAddress .fetch s.pc))

/-- R181, R183, R186: which fault a step raises, and that nothing else faults. -/
def Obligations.FaultsExactlyOnTheThreeAddressErrors : Prop :=
  ∀ (s t : State) (k : AccessKind) (addr : Word), s.run = .running → step s = .next t →
    ((t.run = .faulted ∧ t.faultInfo = some (.invalidAddress k addr)) ↔
      (k = .fetch ∧ addr = s.pc ∧ ¬ s.fetchable) ∨
      (k = .load ∧ s.fetchable ∧ ¬ s.inMemory addr ∧
        ∃ a b f, decode (s.wordAt s.pc.toNat) = .lw a b f ∧ addr = s.readReg a + sext32 f) ∨
      (k = .store ∧ s.fetchable ∧ ¬ s.inMemory addr ∧
        ∃ a b f, decode (s.wordAt s.pc.toNat) = .sw a b f ∧ addr = s.readReg a + sext32 f)) ∧
    (t.run = .faulted → ∃ k' addr', t.faultInfo = some (.invalidAddress k' addr'))

/-- R184: fault entry writes the run-state and the record and nothing else, so the fault is precise; no step follows. -/
def Obligations.FaultEntryIsPrecise : Prop :=
  ∀ s t : State, s.run = .running → step s = .next t → t.run = .faulted →
    (∃ r, t = { s with run := .faulted, faultInfo := some r }) ∧ ∀ u, step t ≠ .next u

/-- R182: no step records an invalid opcode. -/
def Obligations.InvalidOpcodeIsUnreachable : Prop :=
  ∀ s t : State, step s = .next t → s.faultInfo ≠ some .invalidOpcode → t.faultInfo ≠ some .invalidOpcode

/-- R27, R185: once a run has ended, no further iteration changes anything, the fault record included. -/
def Obligations.EndedRunNeverResumes : Prop :=
  ∀ (s : State) (n m : Nat), (s.runFor n).run ≠ .running → s.runFor (n + m) = s.runFor n

/-- R97: fuel that is exhausted shows no end, and an end that is shown stays the same with more fuel. -/
def Obligations.ExhaustedFuelIsNoEnd : Prop :=
  ∀ (s : State) (n m : Nat),
    (s.result n = none ↔ (s.runFor n).run = .running) ∧
    (∀ o, s.result n = some o → s.result (n + m) = some o ∧ o.run ≠ .running)

/-- R184, R205: the two ends exclude each other: a run that ends Halted never faults, at any point. -/
def Obligations.HaltingRunNeverFaults : Prop := ∀ s : State, s.EndsHalted → s.NeverFaults

/-- R205: a step ends Halted exactly when it executes a Word whose bits 24:22 are 110; pc is then the address of that word
plus 1 and the step is counted. -/
def Obligations.HaltedExactlyByAHaltWord : Prop :=
  ∀ s t : State, s.run = .running → step s = .next t →
    (t.run = .halted ↔ s.fetchable ∧ (s.wordAt s.pc.toNat).extractLsb 24 22 = 6#3) ∧
    (t.run = .halted → t.pc = s.pc + 1#32 ∧ t.icount = s.icount + 1)

/-- R28, R29: no step reads the instruction count or the fault record: with others in their place, the same step is taken,
the count moves by the same amount and the old record stays where no fault is taken. -/
def Obligations.NothingReadsTheCountOrTheRecord : Prop :=
  ∀ (s t : State) (k : Nat) (fi : Option FaultRecord), s.run = .running → step s = .next t →
    step { s with icount := k, faultInfo := fi } =
      .next { t with icount := k + (t.icount - s.icount),
                     faultInfo := if t.run = .faulted then t.faultInfo else fi }

/-- R31: the loaded-word count is the image's length, never changes along any run (nor do the parameters of the machine),
and is read by no instruction: its one use is the bound of the fetch. -/
def Obligations.LoadedCountIsConstant : Prop :=
  (∀ (cfg : Config) (image : List Word) (s : State), launch cfg image = .ok s → s.numLoaded = image.length) ∧
  (∀ (n : Nat) (s : State), (s.runFor n).numLoaded = s.numLoaded ∧ (s.runFor n).cfg = s.cfg) ∧
  ∀ (i : Instr) (s t : State) (k : Nat), exec i s = .next t →
    exec i { s with numLoaded := k } = .next { t with numLoaded := k }

/-- R98, R204(b): the power-on contents of unloaded memory change nothing in a step of a machine whose image is listed,
unless it loads a word that nothing has determined. -/
def Obligations.UnloadedContentsMatterOnlyToLoads : Prop :=
  ∀ (s t : State) (p : Nat), s.run = .running → (∀ a, a < s.numLoaded → s.mem.find a ≠ none) →
    (∀ a b f, decode (s.wordAt s.pc.toNat) = .lw a b f → s.inMemory (s.effectiveAddress a f) →
      s.mem.find (slot (s.effectiveAddress a f)) ≠ none) →
    step s = .next t → step (s.withPowerOn p) = .next (t.withPowerOn p)

/-! ### The eight instructions: encoding, result, completion, frame -/

/-- R100. -/
def Obligations.AddWritesTheSum : Prop :=
  (∀ w : Word, w.extractLsb 24 22 = 0#3 → decode w = .add (regField w 19) (regField w 16) (regField w 0)) ∧
  (∀ a b d : Reg, encode (.add a b d) = BitVec.ofNat 32 (a.val * 2 ^ 19 + b.val * 2 ^ 16 + d.val)) ∧
  ∀ (a b d : Reg) (s : State), ∃ t, exec (.add a b d) s = .next t ∧
    t.readReg d = BitVec.ofNat 32 ((s.readReg a).toNat + (s.readReg b).toNat) ∧
    t.pc = s.pc + 1#32 ∧ t.run = s.run ∧
    s.SameRegsExcept [d] t ∧ s.SameMemoryExcept [] t ∧ s.Counted t

/-- R101: each result bit is 1 exactly when the bits of both sources are 0. -/
def Obligations.NorWritesTheComplementOfTheOr : Prop :=
  (∀ w : Word, w.extractLsb 24 22 = 1#3 → decode w = .nor (regField w 19) (regField w 16) (regField w 0)) ∧
  (∀ a b d : Reg, encode (.nor a b d) = BitVec.ofNat 32 (1 * 2 ^ 22 + a.val * 2 ^ 19 + b.val * 2 ^ 16 + d.val)) ∧
  ∀ (a b d : Reg) (s : State), ∃ t, exec (.nor a b d) s = .next t ∧
    (∀ i : Fin 32, (t.readReg d).getLsb i = (!(s.readReg a).getLsb i && !(s.readReg b).getLsb i)) ∧
    t.pc = s.pc + 1#32 ∧ t.run = s.run ∧
    s.SameRegsExcept [d] t ∧ s.SameMemoryExcept [] t ∧ s.Counted t

/-- R111: the load, and the fault of an address outside memory. -/
def Obligations.LwLoadsTheWordOrFaults : Prop :=
  (∀ w : Word, w.extractLsb 24 22 = 2#3 → decode w = .lw (regField w 19) (regField w 16) (w.extractLsb 15 0)) ∧
  (∀ (a b : Reg) (f : Field16),
    encode (.lw a b f) = BitVec.ofNat 32 (2 * 2 ^ 22 + a.val * 2 ^ 19 + b.val * 2 ^ 16 + f.toNat)) ∧
  ∀ (a b : Reg) (f : Field16) (s : State),
    (0 ≤ (s.readReg a + sext32 f).toInt ∧ (s.readReg a + sext32 f).toInt < s.cfg.memWords →
      ∃ t, exec (.lw a b f) s = .next t ∧
        t.readReg b = s.wordAt (s.readReg a + sext32 f).toNat ∧
        t.pc = s.pc + 1#32 ∧ t.run = s.run ∧
        s.SameRegsExcept [b] t ∧ s.SameMemoryExcept [] t ∧ s.Counted t) ∧
    ((s.readReg a + sext32 f).toInt < 0 ∨ (s.cfg.memWords : Int) ≤ (s.readReg a + sext32 f).toInt →
      exec (.lw a b f) s =
        .next { s with run := .faulted, faultInfo := some (.invalidAddress .load (s.readReg a + sext32 f)) })

/-- R112: the store, with the address it goes to, and the fault of an address outside memory. -/
def Obligations.SwStoresTheWordOrFaults : Prop :=
  (∀ w : Word, w.extractLsb 24 22 = 3#3 → decode w = .sw (regField w 19) (regField w 16) (w.extractLsb 15 0)) ∧
  (∀ (a b : Reg) (f : Field16),
    encode (.sw a b f) = BitVec.ofNat 32 (3 * 2 ^ 22 + a.val * 2 ^ 19 + b.val * 2 ^ 16 + f.toNat)) ∧
  ∀ (a b : Reg) (f : Field16) (s : State),
    (0 ≤ (s.readReg a + sext32 f).toInt ∧ (s.readReg a + sext32 f).toInt < s.cfg.memWords →
      ∃ t, exec (.sw a b f) s = .next t ∧
        t.wordAt (slot (s.effectiveAddress a f)) = s.readReg b ∧
        t.pc = s.pc + 1#32 ∧ t.run = s.run ∧
        s.SameRegsExcept [] t ∧ s.SameMemoryExcept [slot (s.effectiveAddress a f)] t ∧ s.Counted t) ∧
    ((s.readReg a + sext32 f).toInt < 0 ∨ (s.cfg.memWords : Int) ≤ (s.readReg a + sext32 f).toInt →
      exec (.sw a b f) s =
        .next { s with run := .faulted, faultInfo := some (.invalidAddress .store (s.readReg a + sext32 f)) })

/-- R120. -/
def Obligations.BeqBranchesOnEquality : Prop :=
  (∀ w : Word, w.extractLsb 24 22 = 4#3 → decode w = .beq (regField w 19) (regField w 16) (w.extractLsb 15 0)) ∧
  (∀ (a b : Reg) (f : Field16),
    encode (.beq a b f) = BitVec.ofNat 32 (4 * 2 ^ 22 + a.val * 2 ^ 19 + b.val * 2 ^ 16 + f.toNat)) ∧
  ∀ (a b : Reg) (f : Field16) (s : State), ∃ t, exec (.beq a b f) s = .next t ∧
    (s.readReg a = s.readReg b → t.pc = s.pc + 1#32 + sext32 f) ∧
    (s.readReg a ≠ s.readReg b → t.pc = s.pc + 1#32) ∧
    t.run = s.run ∧ s.SameRegsExcept [] t ∧ s.SameMemoryExcept [] t ∧ s.Counted t

/-- R121: the target is the old value of `regA`, also when the link is written to it. -/
def Obligations.JalrJumpsAndLinks : Prop :=
  (∀ w : Word, w.extractLsb 24 22 = 5#3 → decode w = .jalr (regField w 19) (regField w 16)) ∧
  (∀ a b : Reg, encode (.jalr a b) = BitVec.ofNat 32 (5 * 2 ^ 22 + a.val * 2 ^ 19 + b.val * 2 ^ 16)) ∧
  ∀ (a b : Reg) (s : State), ∃ t, exec (.jalr a b) s = .next t ∧
    t.pc = s.readReg a ∧ t.readReg b = s.pc + 1#32 ∧ t.run = s.run ∧
    s.SameRegsExcept [b] t ∧ s.SameMemoryExcept [] t ∧ s.Counted t

/-- R130. -/
def Obligations.HaltStopsTheMachine : Prop :=
  (∀ w : Word, w.extractLsb 24 22 = 6#3 → decode w = .halt) ∧ encode .halt = 25165824#32 ∧
  ∀ s : State, ∃ t, exec .halt s = .next t ∧
    t.pc = s.pc + 1#32 ∧ t.run = .halted ∧ (∀ u, step t ≠ .next u) ∧
    s.SameRegsExcept [] t ∧ s.SameMemoryExcept [] t ∧ s.Counted t

/-- R131. -/
def Obligations.NoopOnlyAdvancesThePc : Prop :=
  (∀ w : Word, w.extractLsb 24 22 = 7#3 → decode w = .noop) ∧ encode .noop = 29360128#32 ∧
  ∀ s : State, ∃ t, exec .noop s = .next t ∧
    t.pc = s.pc + 1#32 ∧ t.run = s.run ∧
    s.SameRegsExcept [] t ∧ s.SameMemoryExcept [] t ∧ s.Counted t

/-- R22, R23: over all instructions, a step changes no register but the one its format writes, and a write to any register,
register 0 among them, is seen by the next read. -/
def Obligations.RegistersChangeOnlyThroughTheirSelector : Prop :=
  (∀ (s t : State) (r : Reg), s.run = .running → step s = .next t → t.readReg r ≠ s.readReg r →
    s.fetchable ∧ destinationOf (decode (s.wordAt s.pc.toNat)) = some r) ∧
  ∀ (s : State) (r q : Reg) (v : Word), (s.writeReg r v).readReg q = if q = r then v else s.readReg q

/-! ### Memory -/

/-- R46, R47: the two memory primitives, their bound, and what a write leaves alone. -/
def Obligations.MemoryPrimitivesFollowTheirRules : Prop :=
  ∀ (s : State) (addr v : Word),
    (0 ≤ addr.toInt ∧ addr.toInt < s.cfg.memWords →
      s.memRead addr = .ok (s.wordAt addr.toNat) ∧
      ∃ t, s.memWrite addr v = .ok t ∧ t.wordAt addr.toNat = v ∧
        (∀ a, a ≠ addr.toNat → t.wordAt a = s.wordAt a) ∧ t = { s with mem := t.mem }) ∧
    (addr.toInt < 0 ∨ (s.cfg.memWords : Int) ≤ addr.toInt →
      s.memRead addr = .error (.invalidAddress .load addr) ∧
      s.memWrite addr v = .error (.invalidAddress .store addr))

/-- R48: under the limit of MEM_WORDS the wrapped sum and the unbounded sum give the same verdict and the same address. -/
def Obligations.WrappedAddressAgreesWithUnboundedSum : Prop :=
  ∀ (s : State) (a : Reg) (f : Field16), s.cfg.wf = true →
    s.effectiveAddress a f = s.readReg a + sext32 f ∧
    (s.inMemory (s.effectiveAddress a f) ↔
      0 ≤ (s.readReg a).toInt + (sext32 f).toInt ∧ (s.readReg a).toInt + (sext32 f).toInt < s.cfg.memWords) ∧
    (s.inMemory (s.effectiveAddress a f) →
      (s.effectiveAddress a f).toInt = (s.readReg a).toInt + (sext32 f).toInt)

/-- R57: a stored word is what a fetch at its address reads at once, and it is fetched only below the loaded-word count. -/
def Obligations.StoreIsSeenByTheNextFetch : Prop :=
  ∀ (s : State) (a b : Reg) (f : Field16), s.inMemory (s.effectiveAddress a f) →
    ∃ t, exec (.sw a b f) s = .next t ∧
      ({ t with pc := s.effectiveAddress a f } : State).fetch =
        if (s.effectiveAddress a f).toInt < s.numLoaded then .ok (s.readReg b)
        else .error (.invalidAddress .fetch (s.effectiveAddress a f))

/-- R52: a word that neither the image nor a store has determined keeps one value for the whole run. -/
def Obligations.UnwrittenWordKeepsItsValue : Prop :=
  ∀ (n : Nat) (s : State) (a : Nat), (s.runFor n).mem.find a = none →
    s.mem.find a = none ∧ (s.runFor n).wordAt a = s.wordAt a

/-- R42: an instruction other than `lw` and `sw` makes no data access: whatever memory holds, it does the same and leaves
memory alone. `lw` leaves it alone too. -/
def Obligations.OnlyLoadAndStoreReachMemory : Prop :=
  (∀ (i : Instr) (s t : State) (m : Memory), noDataAccess i = true → exec i s = .next t →
    t.mem = s.mem ∧ exec i { s with mem := m } = .next { t with mem := m }) ∧
  ∀ (a b : Reg) (f : Field16) (s t : State), exec (.lw a b f) s = .next t → t.mem = s.mem

/-! ### Reset, launch and the invariant -/

/-- The reset values of R24 and R201, in State.reset. That State.reset is the launch of the EMPTY image, so that no word is
listed and the loaded-word count is 0, is the model's choice (log entry 4, DESIGN CHOICE), which R203 allows. That `cfg` is
65536 words and run 0 is the model's choice too (log entries 2 and 3) and is not stated. -/
def Obligations.ResetZeroesTheMachine : Prop :=
  (∀ r : Reg, State.reset.readReg r = 0#32) ∧ State.reset.pc = 0#32 ∧ State.reset.run = .running ∧
  State.reset.icount = 0 ∧ State.reset.faultInfo = none ∧ State.reset.mem.cells = [] ∧ State.reset.numLoaded = 0

/-- R203: a launch places the image from address 0 and gives the reset values; an image that does not fit is refused; the
empty image is allowed and faults at its first fetch. -/
def Obligations.LaunchLoadsTheImage : Prop :=
  ∀ (cfg : Config) (image : List Word), cfg.wf = true →
    (image.length ≤ cfg.memWords → ∃ s, launch cfg image = .ok s ∧
      (∀ (i : Nat) (w : Word), image[i]? = some w → s.wordAt i = w) ∧
      s.numLoaded = image.length ∧ s.cfg = cfg ∧
      (∀ r, s.readReg r = 0#32) ∧ s.pc = 0#32 ∧ s.run = .running ∧ s.icount = 0 ∧ s.faultInfo = none ∧
      (image = [] →
        step s = .next { s with run := .faulted, faultInfo := some (.invalidAddress .fetch 0#32) })) ∧
    (cfg.memWords < image.length → ∃ e, launch cfg image = .error e)

/-- The invariant holds in the state after reset. -/
def Obligations.InvariantHoldsAtReset : Prop := State.reset.Inv

/-- The invariant holds after every launch that is not refused. -/
def Obligations.InvariantHoldsAfterLaunch : Prop :=
  ∀ (cfg : Config) (image : List Word) (s : State), launch cfg image = .ok s → s.Inv

/-- Every step from every state that meets the invariant gives a state that meets it. -/
def Obligations.InvariantIsKeptByEveryStep : Prop :=
  ∀ s t : State, s.Inv → step s = .next t → t.Inv

/-- R25, R26: in a state that meets the invariant, the increment of an executing instruction never wraps. -/
def Obligations.PcIncrementNeverWraps : Prop :=
  ∀ s : State, s.Inv → s.fetchable → s.nextPc.toInt = s.pc.toInt + 1 ∧ s.nextPc.toNat = s.pc.toNat + 1

/-! ### The encoder and the label table -/

/-- R143, R144: insertion checks the name, then the duplicate, and changes no other entry; a name that is not a valid label
is in no table pass 1 builds. -/
def Obligations.LabelTableInsertAndResolve : Prop :=
  (∀ (table : LabelTable) (name : String) (v : Word),
    (validLabel name = false → tableInsert table name v = .error .invalidLabel) ∧
    (validLabel name = true → tableFind table name ≠ none → tableInsert table name v = .error .duplicateLabel) ∧
    (validLabel name = true → tableFind table name = none → ∃ table', tableInsert table name v = .ok table' ∧
      resolve table' name = .ok v ∧ ∀ other, other ≠ name → resolve table' other = resolve table other) ∧
    (tableFind table name = none → resolve table name = .error .undefinedLabel)) ∧
  ∀ (lines : List Line) (table : LabelTable) (name : String), pass1 0 [] lines = .ok table →
    validLabel name = false → resolve table name = .error .undefinedLabel

/-- R146, R147, R157: in the finished table a label on an instruction line has the line's address as its value, and one on
a `.fill` line the value of its operand against the labels of the earlier lines, which is also the word pass 2 emits for
the line. A `.fill` operand is a literal of the signed 32-bit range, whole, or a label's value, in pass 1 and in pass 2.
An address above 2^31 - 1, which no entry can hold (R35), gives some value (log entry 11, the model's choice). -/
def Obligations.LabelValueIsAddressOrFilledValue : Prop :=
  (∀ (lines : List Line) (table : LabelTable) (i : Nat) (line : Line), pass1 0 [] lines = .ok table →
    lines[i]? = some line → line.label ≠ "" →
    ∃ v, resolve table line.label = .ok v ∧
      (line.opcode ≠ ".fill" → i < 2 ^ 31 → v.toInt = i) ∧
      (line.opcode = ".fill" → encodeLine i table line = .ok v ∧
        ∃ before, pass1 0 [] (lines.take i) = .ok before ∧ labelValue i before line = .ok v)) ∧
  ∀ (i : Nat) (table : LabelTable) (line : Line), line.opcode = ".fill" →
    (∀ k : Int, numericValue line.arg0 = some k → -2 ^ 31 ≤ k → k ≤ 2 ^ 31 - 1 →
      ∃ v, v.toInt = k ∧ labelValue i table line = .ok v ∧ encodeLine i table line = .ok v) ∧
    (∀ k : Int, numericValue line.arg0 = some k → k < -2 ^ 31 ∨ 2 ^ 31 - 1 < k →
      labelValue i table line = .error .fillRange ∧ encodeLine i table line = .error .fillRange) ∧
    (numericValue line.arg0 = none →
      labelValue i table line = resolve table line.arg0 ∧ encodeLine i table line = resolve table line.arg0)
/-- R147: a labelled `.fill` line that names a label no earlier line defines fails, whatever the later lines define. -/
def Obligations.ForwardFillReferenceFails : Prop :=
  ∀ (lines : List Line) (i : Nat) (line : Line) (before : LabelTable), lines[i]? = some line →
    line.label ≠ "" → line.opcode = ".fill" → numericValue line.arg0 = none →
    (∀ (j : Nat) (l : Line), j < i → lines[j]? = some l → l.label ≠ line.arg0) →
    pass1 0 [] (lines.take i) = .ok before → assemble lines = .error .undefinedLabel

/-- R148: two lines carrying one label name never give an image, wherever they stand and whatever else the program holds;
where pass 1 has passed the lines before the second and the second's value can be computed, the error is
DuplicateLabelError. -/
def Obligations.DuplicateLabelsNeverAssemble : Prop :=
  ∀ (lines : List Line) (i j : Nat) (l m : Line), i < j → lines[i]? = some l → lines[j]? = some m →
    l.label = m.label → m.label ≠ "" →
    (∃ e, assemble lines = .error e) ∧
    (∀ (before : LabelTable) (v : Word), pass1 0 [] (lines.take j) = .ok before → labelValue j before m = .ok v →
      assemble lines = .error .duplicateLabel)

/-- R152: the register operand of a line. -/
def Obligations.RegisterOperandIsCheckedBothWays : Prop :=
  (∀ token : String,
    (numericValue token = none → regOperand token = .error .nonIntegerRegister) ∧
    (∀ k : Int, numericValue token = some k → 0 ≤ k → k ≤ 7 → ∃ r : Reg, regOperand token = .ok r ∧ (r.val : Int) = k) ∧
    (∀ k : Int, numericValue token = some k → k < 0 ∨ 7 < k → regOperand token = .error .registerRange)) ∧
  regOperand "8" = .error .registerRange ∧ regOperand "-1" = .error .registerRange ∧
  regOperand "r0" = .error .nonIntegerRegister ∧ regOperand "" = .error .nonIntegerRegister ∧
  regOperand "7" = .ok 7 ∧ regOperand "0" = .ok 0

/-- R154 to R156: the offset of `lw`, `sw` and `beq` is the literal as written, or the label's value (for `beq` made
relative to the following line), and is range-checked either way; a label the table lacks is an error. -/
def Obligations.OffsetOperandIsRangeChecked : Prop :=
  ∀ (i : Nat) (table : LabelTable) (line : Line) (op : Opcode) (a b : Reg),
    mnemonicOf line.opcode = some (.instr op) → op = .lw ∨ op = .sw ∨ op = .beq →
    regOperand line.arg0 = .ok a → regOperand line.arg1 = .ok b →
    (∀ o : Int,
      (numericValue line.arg2 = some o ∨
        numericValue line.arg2 = none ∧ op ≠ .beq ∧ (∃ v, resolve table line.arg2 = .ok v ∧ v.toInt = o) ∨
        numericValue line.arg2 = none ∧ op = .beq ∧ ∃ v, resolve table line.arg2 = .ok v ∧ v.toInt = o + (i + 1)) →
      encodeLine i table line =
        if -32768 ≤ o ∧ o ≤ 32767 then .ok (enc op a b o) else .error .offsetRange) ∧
    (numericValue line.arg2 = none → tableFind table line.arg2 = none →
      encodeLine i table line = .error .undefinedLabel)

/-- R124: a `beq` line whose operand is a label assembles to a word that, executed at the line's address with equal
registers, lands on the label's value; a numeric operand is stored as written. -/
def Obligations.AssembledBranchLandsOnItsLabel : Prop :=
  ∀ (i : Nat) (table : LabelTable) (line : Line) (w : Word),
    mnemonicOf line.opcode = some (.instr .beq) → encodeLine i table line = .ok w →
    (∀ (v : Word) (s : State), numericValue line.arg2 = none → resolve table line.arg2 = .ok v →
      s.pc = BitVec.ofNat 32 i → s.readReg (regAOf w) = s.readReg (regBOf w) →
      ∃ t, exec (decode w) s = .next t ∧ t.pc = v) ∧
    (∀ o : Int, numericValue line.arg2 = some o → (sext32 (field16Of w)).toInt = o)

/-- R142, R162: an image is a result exactly when pass 1 succeeds and every line encodes against the finished table,
and it then has the word of each line, one a line. -/
def Obligations.AssembleIsTwoPassesAllOrNothing : Prop :=
  ∀ (lines : List Line) (image : List Word), assemble lines = .ok image ↔
    ∃ table, pass1 0 [] lines = .ok table ∧ image.length = lines.length ∧
      ∀ (i : Nat) (line : Line), lines[i]? = some line →
        ∃ w, image[i]? = some w ∧ encodeLine i table line = .ok w

/-- R163: decoding a word of the image that came from an instruction line gives the line's opcode, registers and offset, or
its destination modulo 8; bits 31:25 are 0, and the word is canonical unless it is an `add` or `nor` whose destination
operand is outside 0 to 7. -/
def Obligations.ImageDecodesToItsLines : Prop :=
  ∀ (lines : List Line) (image : List Word), assemble lines = .ok image →
    image.length = lines.length ∧
    ∃ table, pass1 0 [] lines = .ok table ∧
      ∀ (i : Nat) (line : Line) (w : Word) (op : Opcode), lines[i]? = some line → image[i]? = some w →
        mnemonicOf line.opcode = some (.instr op) →
        w.extractLsb 31 25 = 0#7 ∧ (decode w).opcode = op ∧
        (op ≠ .halt ∧ op ≠ .noop →
          numericValue line.arg0 = some ((regAOf w).val : Int) ∧ numericValue line.arg1 = some ((regBOf w).val : Int)) ∧
        (op = .add ∨ op = .nor → ∃ d, numericValue line.arg2 = some d ∧ ((destOf w).val : Int) = d % 8 ∧
          (0 ≤ d ∧ d ≤ 7 → canonical w = true)) ∧
        (op = .lw ∨ op = .sw → absoluteOperand table line.arg2 = .ok (sext32 (field16Of w)).toInt) ∧
        (op = .beq → relativeOperand i table line.arg2 = .ok (sext32 (field16Of w)).toInt) ∧
        (op ≠ .add ∧ op ≠ .nor → canonical w = true)

/-- R164: a word is written as its signed value, and a reader gives the word back; only a decimal of the signed 32-bit range
is a word's. -/
def Obligations.DecimalImageReadsBack : Prop :=
  (∀ image : List Word, imageDecimals image = image.map fun w => w.toInt) ∧
  imageDecimals [0xFFFFFFFF#32] = [-1] ∧ imageDecimals [0x01C00000#32] = [29360128] ∧
  (∀ image : List Word, (imageDecimals image).map wordOfDecimal = image.map some) ∧
  ∀ (d : Int) (w : Word), wordOfDecimal d = some w ↔ w.toInt = d

/-- R35: the table pass 1 finishes has one entry for each label name of the lines and no other, all names different, and
each value is a 32-bit signed integer. -/
def Obligations.LabelTableIsAMapOfTheLabels : Prop :=
  ∀ (lines : List Line) (table : LabelTable), pass1 0 [] lines = .ok table →
    (table.map Prod.fst).Nodup ∧
    (∀ name : String, name ∈ table.map Prod.fst ↔ name ≠ "" ∧ ∃ line ∈ lines, line.label = name) ∧
    ∀ (name : String) (v : Word), (name, v) ∈ table →
      resolve table name = .ok v ∧ -2 ^ 31 ≤ v.toInt ∧ v.toInt ≤ 2 ^ 31 - 1
end

