-- ==== Sys2Proof/Laws/Assembler.lean ====
section
/-! SUPPORT. The label table, one line of each pass, and the operand functions of the encoder: what each can answer. -/

namespace Sys2Proof.Machine

/-- Everything an insertion that succeeds did. -/
theorem tableInsert_ok {table table' : LabelTable} {name : String} {v : Word}
    (h : tableInsert table name v = .ok table') :
    validLabel name = true ∧ tableFind table name = none ∧ table' = (name, v) :: table := by
  unfold tableInsert at h
  split at h
  · next hv =>
    split at h
    · cases h
    · next hn => exact ⟨hv, hn, by injection h with h; exact h.symm⟩
  · cases h

/-- The entries after an insertion. -/
theorem tableFind_cons (table : LabelTable) (name other : String) (v : Word) :
    tableFind ((name, v) :: table) other = if name = other then some v else tableFind table other := rfl

/-- A line address that a 32-bit signed integer holds is the label's value. -/
theorem addressValue_toInt {i : Nat} (h : i < 2 ^ 31) : (addressValue i).toInt = i := by
  rw [addressValue, if_pos h, BitVec.toInt_eq_toNat_bmod, BitVec.toNat_ofNat, Int.bmod_def]
  omega

/-- Everything a `.fill` operand that passes says: the literal, whole, or a label's value. -/
theorem fillValue_ok {table : LabelTable} {token : String} {v : Word} (h : fillValue table token = .ok v) :
    numericValue token = some v.toInt ∨ (numericValue token = none ∧ resolve table token = .ok v) := by
  unfold fillValue at h
  split at h
  · next k hk =>
    split at h
    · next hb =>
      injection h with h
      subst h
      left
      rw [hk, BitVec.toInt_ofInt, Int.bmod_def]
      congr 1
      omega
    · cases h
  · next hk => exact .inr ⟨hk, h⟩

/-- Everything pass 1 can have done on a line it passed. -/
theorem collectLabel_ok {i : Nat} {table table' : LabelTable} {line : Line} (h : collectLabel i table line = .ok table') :
    (line.label = "" ∧ table' = table) ∨
    (line.label ≠ "" ∧ ∃ v, labelValue i table line = .ok v ∧ validLabel line.label = true ∧
      tableFind table line.label = none ∧ table' = (line.label, v) :: table) := by
  unfold collectLabel at h
  split at h
  · next hl => exact .inl ⟨hl, by injection h with h; exact h.symm⟩
  · next hl =>
    split at h
    · cases h
    · next v hv =>
      obtain ⟨h1, h2, h3⟩ := tableInsert_ok h
      exact .inr ⟨hl, v, hv, h1, h2, h3⟩

/-- Pass 1 over a line and the rest. -/
theorem pass1_cons_ok {i : Nat} {table table' : LabelTable} {line : Line} {lines : List Line}
    (h : pass1 i table (line :: lines) = .ok table') :
    ∃ mid, collectLabel i table line = .ok mid ∧ pass1 (i + 1) mid lines = .ok table' := by
  unfold pass1 at h
  split at h
  · cases h
  · next mid hm => exact ⟨mid, hm, h⟩

/-- Pass 2 over a line and the rest. -/
theorem pass2_cons_ok {i : Nat} {table : LabelTable} {line : Line} {lines : List Line} {image : List Word}
    (h : pass2 i table (line :: lines) = .ok image) :
    ∃ w ws, encodeLine i table line = .ok w ∧ pass2 (i + 1) table lines = .ok ws ∧ image = w :: ws := by
  unfold pass2 at h
  split at h
  · cases h
  · next w hw =>
    split at h
    · cases h
    · next ws hws => exact ⟨w, ws, hw, hws, by injection h with h; exact h.symm⟩

/-- A register operand that passes is the number its token spells. -/
theorem regOperand_ok {token : String} {r : Reg} (h : regOperand token = .ok r) :
    numericValue token = some (r.val : Int) := by
  unfold regOperand at h
  split at h
  · cases h
  · next k hk =>
    split at h
    · next hb =>
      injection h with h
      subst h
      rw [hk]
      have : (Fin.ofNat 8 k.toNat).val = k.toNat := by
        simp only [Fin.val_ofNat]
        omega
      rw [this, Int.toNat_of_nonneg hb.1]
    · cases h

/-- A destination operand that passes is the number its token spells, any integer. -/
theorem destOperand_ok {token : String} {d : Int} (h : destOperand token = .ok d) : numericValue token = some d := by
  unfold destOperand at h
  split at h
  · cases h
  · next k hk => injection h with h; rw [hk, h]

/-- An offset that passes the check is unchanged and in range. -/
theorem checkOffset_ok {o o' : Int} (h : checkOffset o = .ok o') : o' = o ∧ -32768 ≤ o ∧ o ≤ 32767 := by
  unfold checkOffset at h
  split at h
  · next hb => exact ⟨by injection h with h; exact h.symm, hb⟩
  · cases h

/-- Everything an R-type line that encodes did. -/
theorem encodeRType_ok {op : Opcode} {line : Line} {w : Word} (h : encodeRType op line = .ok w) :
    ∃ a b d, regOperand line.arg0 = .ok a ∧ regOperand line.arg1 = .ok b ∧ destOperand line.arg2 = .ok d ∧
      w = enc op a b d := by
  unfold encodeRType at h
  cases ha : regOperand line.arg0 with
  | error e => simp [ha, bind, Except.bind] at h
  | ok a =>
    cases hb : regOperand line.arg1 with
    | error e => simp [ha, hb, bind, Except.bind] at h
    | ok b =>
      cases hd : destOperand line.arg2 with
      | error e => simp [ha, hb, hd, bind, Except.bind] at h
      | ok d =>
        simp [ha, hb, hd, bind, Except.bind] at h
        exact ⟨a, b, d, rfl, rfl, rfl, h.symm⟩

/-- Everything an I-type line that encodes did. -/
theorem encodeIType_ok {op : Opcode} {line : Line} {offset : Except AsmError Int} {w : Word}
    (h : encodeIType op line offset = .ok w) :
    ∃ a b o, regOperand line.arg0 = .ok a ∧ regOperand line.arg1 = .ok b ∧ offset = .ok o ∧
      -32768 ≤ o ∧ o ≤ 32767 ∧ w = enc op a b o := by
  unfold encodeIType at h
  cases ha : regOperand line.arg0 with
  | error e => simp [ha, bind, Except.bind] at h
  | ok a =>
    cases hb : regOperand line.arg1 with
    | error e => simp [ha, hb, bind, Except.bind] at h
    | ok b =>
      cases offset with
      | error e => simp [ha, hb, bind, Except.bind] at h
      | ok o =>
        cases hc : checkOffset o with
        | error e => simp [ha, hb, hc, bind, Except.bind] at h
        | ok o' =>
          obtain ⟨rfl, h1, h2⟩ := checkOffset_ok hc
          simp [ha, hb, hc, bind, Except.bind] at h
          exact ⟨a, b, o', rfl, rfl, rfl, h1, h2, h.symm⟩

/-- Everything a `jalr` line that encodes did. -/
theorem encodeJType_ok {line : Line} {w : Word} (h : encodeJType line = .ok w) :
    ∃ a b, regOperand line.arg0 = .ok a ∧ regOperand line.arg1 = .ok b ∧ w = enc .jalr a b 0 := by
  unfold encodeJType at h
  cases ha : regOperand line.arg0 with
  | error e => simp [ha, bind, Except.bind] at h
  | ok a =>
    cases hb : regOperand line.arg1 with
    | error e => simp [ha, hb, bind, Except.bind] at h
    | ok b =>
      simp [ha, hb, bind, Except.bind] at h
      exact ⟨a, b, rfl, rfl, h.symm⟩

end Sys2Proof.Machine
end

