-- ==== Sys2Proof/Laws/Decode.lean ====
section
/-! SUPPORT. The encoder's layout as a number, the opcode numbering, and the field slices. -/

namespace Sys2Proof

theorem Opcode.number_lt (op : Opcode) : op.number < 8 := by cases op <;> decide

/-- The numbering of R69 loses no opcode. -/
@[simp] theorem Opcode.ofNumber_number (op : Opcode) : Opcode.ofNumber (Fin.ofNat 8 op.number) = op := by
  cases op <;> rfl

/-- The value of `Enc` as a natural number: the four terms stand in disjoint bit ranges, so nothing wraps (R77). -/
theorem enc_toNat (op : Opcode) (a b : Reg) (f : Int) :
    (enc op a b f).toNat = op.number * 2 ^ 22 + a.val * 2 ^ 19 + b.val * 2 ^ 16 + (f % 65536).toNat := by
  have := op.number_lt
  simp only [enc, Word.ofInteger, BitVec.toNat_ofInt]
  omega

/-- The slices of an encoded word, one by one. -/
theorem slice_enc_opcode (op : Opcode) (a b : Reg) (f : Int) : slice (enc op a b f) 24 22 = op.number := by
  have := op.number_lt
  rw [slice, enc_toNat]
  omega

theorem slice_enc_regA (op : Opcode) (a b : Reg) (f : Int) : slice (enc op a b f) 21 19 = a.val := by
  rw [slice, enc_toNat]
  omega

theorem slice_enc_regB (op : Opcode) (a b : Reg) (f : Int) : slice (enc op a b f) 18 16 = b.val := by
  rw [slice, enc_toNat]
  omega

theorem slice_enc_field16 (op : Opcode) (a b : Reg) (f : Int) :
    slice (enc op a b f) 15 0 = (f % 65536).toNat := by
  rw [slice, enc_toNat]
  omega

theorem slice_enc_unused (op : Opcode) (a b : Reg) (f : Int) : slice (enc op a b f) 31 25 = 0 := by
  have := op.number_lt
  rw [slice, enc_toNat]
  omega

/-- A slice is the extracted bits. -/
theorem slice_eq_extractLsb (w : Word) (hi lo : Nat) : slice w hi lo = (w.extractLsb hi lo).toNat := by
  simp [slice, BitVec.extractLsb_toNat, Nat.shiftRight_eq_div_pow]

/-- The opcode of the decoded instruction is the decoded opcode. -/
@[simp] theorem decode_opcode (w : Word) : (decode w).opcode = opcodeOf w := by
  unfold decode
  cases opcodeOf w <;> rfl

/-- The decoded instruction, once the opcode is known; a proof rewrites with this and never evaluates `opcodeOf`. -/
theorem decode_of_opcode {w : Word} {op : Opcode} (h : opcodeOf w = op) : decode w = decodeAs op w := by
  rw [decode, h]

end Sys2Proof
end

