-- ==== Sys2Proof/Laws/State.lean ====
section
/-! SUPPORT. One lemma per field per update of State, and the reads of a register after a write. -/

namespace Sys2Proof.Machine

section
variable (s : State) (i j : Reg) (v : Word) (a : Nat) (p : Word) (r : FaultRecord)

/-! `writeReg` -/
@[simp] theorem State.writeReg_pc : (s.writeReg i v).pc = s.pc := rfl
@[simp] theorem State.writeReg_mem : (s.writeReg i v).mem = s.mem := rfl
@[simp] theorem State.writeReg_numLoaded : (s.writeReg i v).numLoaded = s.numLoaded := rfl
@[simp] theorem State.writeReg_run : (s.writeReg i v).run = s.run := rfl
@[simp] theorem State.writeReg_icount : (s.writeReg i v).icount = s.icount := rfl
@[simp] theorem State.writeReg_faultInfo : (s.writeReg i v).faultInfo = s.faultInfo := rfl
@[simp] theorem State.writeReg_cfg : (s.writeReg i v).cfg = s.cfg := rfl
@[simp] theorem State.writeReg_wordAt : (s.writeReg i v).wordAt a = s.wordAt a := rfl

/-- A register write is seen at that register and nowhere else; no register is special (R22). -/
theorem State.readReg_writeReg : (s.writeReg i v).readReg j = if i = j then v else s.readReg j := by
  simp [State.readReg, State.writeReg, Vector.getElem_set, Fin.ext_iff]

@[simp] theorem State.readReg_writeReg_self : (s.writeReg i v).readReg i = v := by
  simp [State.readReg_writeReg]

/-! `complete` -/
@[simp] theorem State.complete_x : (s.complete p).x = s.x := rfl
@[simp] theorem State.complete_pc : (s.complete p).pc = p := rfl
@[simp] theorem State.complete_mem : (s.complete p).mem = s.mem := rfl
@[simp] theorem State.complete_numLoaded : (s.complete p).numLoaded = s.numLoaded := rfl
@[simp] theorem State.complete_run : (s.complete p).run = s.run := rfl
@[simp] theorem State.complete_icount : (s.complete p).icount = s.icount + 1 := rfl
@[simp] theorem State.complete_faultInfo : (s.complete p).faultInfo = s.faultInfo := rfl
@[simp] theorem State.complete_cfg : (s.complete p).cfg = s.cfg := rfl
@[simp] theorem State.complete_readReg : (s.complete p).readReg j = s.readReg j := rfl
@[simp] theorem State.complete_wordAt : (s.complete p).wordAt a = s.wordAt a := rfl

/-! `halt` -/
@[simp] theorem State.halt_x : s.halt.x = s.x := rfl
@[simp] theorem State.halt_pc : s.halt.pc = s.pc := rfl
@[simp] theorem State.halt_mem : s.halt.mem = s.mem := rfl
@[simp] theorem State.halt_numLoaded : s.halt.numLoaded = s.numLoaded := rfl
@[simp] theorem State.halt_run : s.halt.run = .halted := rfl
@[simp] theorem State.halt_icount : s.halt.icount = s.icount := rfl
@[simp] theorem State.halt_faultInfo : s.halt.faultInfo = s.faultInfo := rfl
@[simp] theorem State.halt_cfg : s.halt.cfg = s.cfg := rfl
@[simp] theorem State.halt_readReg : s.halt.readReg j = s.readReg j := rfl
@[simp] theorem State.halt_wordAt : s.halt.wordAt a = s.wordAt a := rfl

/-! `takeFault` -/
@[simp] theorem State.takeFault_x : (s.takeFault r).x = s.x := rfl
@[simp] theorem State.takeFault_pc : (s.takeFault r).pc = s.pc := rfl
@[simp] theorem State.takeFault_mem : (s.takeFault r).mem = s.mem := rfl
@[simp] theorem State.takeFault_numLoaded : (s.takeFault r).numLoaded = s.numLoaded := rfl
@[simp] theorem State.takeFault_run : (s.takeFault r).run = .faulted := rfl
@[simp] theorem State.takeFault_icount : (s.takeFault r).icount = s.icount := rfl
@[simp] theorem State.takeFault_faultInfo : (s.takeFault r).faultInfo = some r := rfl
@[simp] theorem State.takeFault_cfg : (s.takeFault r).cfg = s.cfg := rfl
@[simp] theorem State.takeFault_readReg : (s.takeFault r).readReg j = s.readReg j := rfl
@[simp] theorem State.takeFault_wordAt : (s.takeFault r).wordAt a = s.wordAt a := rfl

/-! `storeAt` -/
@[simp] theorem State.storeAt_x : (s.storeAt a v).x = s.x := rfl
@[simp] theorem State.storeAt_pc : (s.storeAt a v).pc = s.pc := rfl
@[simp] theorem State.storeAt_mem : (s.storeAt a v).mem = s.mem.write a v := rfl
@[simp] theorem State.storeAt_numLoaded : (s.storeAt a v).numLoaded = s.numLoaded := rfl
@[simp] theorem State.storeAt_run : (s.storeAt a v).run = s.run := rfl
@[simp] theorem State.storeAt_icount : (s.storeAt a v).icount = s.icount := rfl
@[simp] theorem State.storeAt_faultInfo : (s.storeAt a v).faultInfo = s.faultInfo := rfl
@[simp] theorem State.storeAt_cfg : (s.storeAt a v).cfg = s.cfg := rfl
@[simp] theorem State.storeAt_readReg : (s.storeAt a v).readReg j = s.readReg j := rfl

end

end Sys2Proof.Machine
end

