-- ==== Sys2Proof/Laws/Memory.lean ====
section
/-! SUPPORT. The memory list: read after write, the canonical form, and the image a launch lists. -/

namespace Sys2Proof.Machine

/-- Read after write on the list, whatever its order. -/
theorem cellsFind_cellsWrite (cs : List WordCell) (a b : Nat) (v : Word) :
    cellsFind (cellsWrite cs a v) b = if a = b then some v else cellsFind cs b := by
  induction cs with
  | nil => simp [cellsWrite, cellsFind]
  | cons c cs ih =>
    obtain ⟨k, w⟩ := c
    unfold cellsWrite
    split
    · simp only [cellsFind, ih]
      by_cases hk : k = b
      · have : a ≠ b := by omega
        simp [hk, this]
      · simp [hk]
    · split
      · next hka => subst hka; by_cases hb : k = b <;> simp [cellsFind, hb]
      · simp [cellsFind]

/-- The word a write puts at an address is found there, and every other address is as before. -/
@[simp] theorem Memory.find_write (m : Memory) (a b : Nat) (v : Word) :
    (m.write a v).find b = if a = b then some v else m.find b :=
  cellsFind_cellsWrite m.cells a b v

/-- The addresses of a written list are those it had and the written one. -/
theorem mem_cellsWrite {cs : List WordCell} {a : Nat} {v : Word} {c : WordCell} (h : c ∈ cellsWrite cs a v) :
    c = (a, v) ∨ c ∈ cs := by
  induction cs with
  | nil => simpa [cellsWrite] using h
  | cons d cs ih =>
    obtain ⟨k, w⟩ := d
    unfold cellsWrite at h
    split at h
    · rcases List.mem_cons.mp h with h | h
      · exact .inr (h ▸ List.mem_cons_self)
      · exact (ih h).imp_right (List.mem_cons_of_mem _)
    · split at h
      · rcases List.mem_cons.mp h with h | h
        · exact .inl h
        · exact .inr (List.mem_cons_of_mem _ h)
      · rcases List.mem_cons.mp h with h | h
        · exact .inl h
        · exact .inr h

/-- A write keeps the canonical form. -/
theorem Memory.wf_write {m : Memory} (h : m.wf) (a : Nat) (v : Word) : (m.write a v).wf := by
  obtain ⟨cs⟩ := m
  change cs.Pairwise (fun c d => c.1 < d.1) at h
  change (cellsWrite cs a v).Pairwise (fun c d => c.1 < d.1)
  induction cs with
  | nil => simp [cellsWrite]
  | cons d cs ih =>
    obtain ⟨k, w⟩ := d
    obtain ⟨hhead, htail⟩ := List.pairwise_cons.mp h
    unfold cellsWrite
    split
    · next hk =>
      refine List.pairwise_cons.mpr ⟨fun c hc => ?_, ih htail⟩
      rcases mem_cellsWrite hc with rfl | hc
      · exact hk
      · exact hhead c hc
    · split
      · next hk => subst hk; exact List.pairwise_cons.mpr ⟨hhead, htail⟩
      · next hk hne =>
        refine List.pairwise_cons.mpr ⟨fun c hc => ?_, h⟩
        rcases List.mem_cons.mp hc with rfl | hc
        · show a < k
          omega
        · have := hhead c hc
          show a < c.1
          have : k < c.1 := this
          omega

/-- A store keeps the canonical form of the state's memory. -/
theorem State.wf_storeAt {s : State} (h : s.mem.wf) (a : Nat) (v : Word) : (s.storeAt a v).mem.wf :=
  Memory.wf_write h a v

/-- Read after write, in the state. -/
theorem State.wordAt_storeAt (s : State) (a b : Nat) (v : Word) :
    (s.storeAt a v).wordAt b = if a = b then v else s.wordAt b := by
  by_cases h : a = b <;> simp [State.wordAt, h]

@[simp] theorem State.wordAt_storeAt_self (s : State) (a : Nat) (v : Word) : (s.storeAt a v).wordAt a = v := by
  simp [State.wordAt_storeAt]

/-- A listed word is what is read. -/
theorem State.wordAt_of_find {s : State} {a : Nat} {v : Word} (h : s.mem.find a = some v) : s.wordAt a = v := by
  simp [State.wordAt, h]

/-- An unlisted word is the free value of its address. -/
theorem State.wordAt_of_unlisted {s : State} {a : Nat} (h : s.mem.find a = none) :
    s.wordAt a = Config.unloadedWord s.cfg.powerOn a := by
  simp [State.wordAt, h]

/-- The image from address `b` on lists exactly its words. -/
theorem cellsFind_imageCells (ws : List Word) (b a : Nat) :
    cellsFind (imageCells b ws) a = if b ≤ a then ws[a - b]? else none := by
  induction ws generalizing b with
  | nil => simp [imageCells, cellsFind]
  | cons w ws ih =>
    simp only [imageCells, cellsFind, ih]
    by_cases hb : b = a
    · simp [hb]
    · by_cases hle : b ≤ a
      · obtain ⟨k, rfl⟩ : ∃ k, a = b + 1 + k := ⟨a - (b + 1), by omega⟩
        have h1 : b + 1 + k - b = k + 1 := by omega
        have h2 : b + 1 + k - (b + 1) = k := by omega
        have h3 : b ≠ b + 1 + k := by omega
        have h4 : b ≤ b + 1 + k := by omega
        simp [h1, h2, h3, h4]
      · have : ¬ b + 1 ≤ a := by omega
        simp [hb, hle, this]

theorem mem_imageCells_le {ws : List Word} {b : Nat} {c : WordCell} (h : c ∈ imageCells b ws) : b ≤ c.1 := by
  induction ws generalizing b with
  | nil => simp [imageCells] at h
  | cons w ws ih =>
    rcases List.mem_cons.mp h with rfl | h
    · exact Nat.le_refl _
    · have := ih h
      omega

/-- The image is in the canonical form. -/
theorem imageCells_pairwise (ws : List Word) (b : Nat) :
    (imageCells b ws).Pairwise (fun c d => c.1 < d.1) := by
  induction ws generalizing b with
  | nil => simp [imageCells]
  | cons w ws ih =>
    refine List.pairwise_cons.mpr ⟨fun c hc => ?_, ih (b + 1)⟩
    have := mem_imageCells_le hc
    show b < c.1
    omega

/-- What a loaded machine's memory lists: the image and nothing else. -/
theorem State.loaded_find (cfg : Config) (image : List Word) (a : Nat) :
    (State.loaded cfg image).mem.find a = image[a]? := by
  simp [State.loaded, Memory.find, cellsFind_imageCells]

/-- State.reset is the launch of the empty image with the default parameters. -/
theorem State.reset_eq_loaded : State.reset = State.loaded Config.default [] := rfl

end Sys2Proof.Machine
end

