-- ==== Sys2Proof/Laws/Ops.lean ====
section
/-! SUPPORT. What each shared operation can do, said once: the provers cite these and unfold none of them. -/

namespace Sys2Proof.Machine

section
variable {s t : State} {addr v w : Word} {r : FaultRecord}

/-- A Word in `0 .. bound-1` as a signed number is that number unsigned. -/
theorem slot_eq_toNat (h : 0 ≤ addr.toInt) : slot addr = addr.toNat := by
  simp only [slot, BitVec.toInt_eq_toNat_cond] at *
  split at h <;> omega

theorem toInt_eq_slot (h : 0 ≤ addr.toInt) : addr.toInt = (slot addr : Int) := by
  simp [slot, h]

theorem State.memRead_ok (h : s.inMemory addr) : s.memRead addr = .ok (s.wordAt (slot addr)) := if_pos h

theorem State.memRead_error (h : ¬ s.inMemory addr) : s.memRead addr = .error (.invalidAddress .load addr) := if_neg h

/-- Everything a read can answer. -/
theorem State.memRead_cases (s : State) (addr : Word) :
    (s.inMemory addr ∧ s.memRead addr = .ok (s.wordAt (slot addr))) ∨
    (¬ s.inMemory addr ∧ s.memRead addr = .error (.invalidAddress .load addr)) := by
  by_cases h : s.inMemory addr
  · exact .inl ⟨h, if_pos h⟩
  · exact .inr ⟨h, if_neg h⟩

theorem State.memWrite_ok (h : s.inMemory addr) : s.memWrite addr v = .ok (s.storeAt (slot addr) v) := if_pos h

theorem State.memWrite_error (h : ¬ s.inMemory addr) : s.memWrite addr v = .error (.invalidAddress .store addr) :=
  if_neg h

/-- Everything a write can answer. -/
theorem State.memWrite_cases (s : State) (addr v : Word) :
    (s.inMemory addr ∧ s.memWrite addr v = .ok (s.storeAt (slot addr) v)) ∨
    (¬ s.inMemory addr ∧ s.memWrite addr v = .error (.invalidAddress .store addr)) := by
  by_cases h : s.inMemory addr
  · exact .inl ⟨h, if_pos h⟩
  · exact .inr ⟨h, if_neg h⟩

theorem State.fetch_ok (h : s.fetchable) : s.fetch = .ok (s.wordAt (slot s.pc)) := if_pos h

theorem State.fetch_error (h : ¬ s.fetchable) : s.fetch = .error (.invalidAddress .fetch s.pc) := if_neg h

/-- The condition of `beq` is equality of the two registers (R120). -/
theorem State.regsEqual_iff (a b : Reg) : s.regsEqual a b = true ↔ s.readReg a = s.readReg b := by
  simp [State.regsEqual]

end

end Sys2Proof.Machine
end

