-- ==== Sys2Proof/Laws/PerInstr.lean ====
section
/-! SUPPORT. Statements about every instruction, one lemma per constructor: the word an instruction encodes to has the
opcode number of R69 at bits 24:22 and zeros at bits 31:25 (R61, R77). -/

namespace Sys2Proof.Laws.OpcodeField

/-- The encoded word carries the instruction's opcode number, and nothing above it. -/
def Statement (i : Instr) : Prop :=
  i.wf = true ∧ slice (encode i) 24 22 = i.opcode.number ∧ slice (encode i) 31 25 = 0

theorem add (a b d : Reg) : Statement (.add a b d) := ⟨rfl, slice_enc_opcode .., slice_enc_unused ..⟩
theorem nor (a b d : Reg) : Statement (.nor a b d) := ⟨rfl, slice_enc_opcode .., slice_enc_unused ..⟩
theorem lw (a b : Reg) (f : Field16) : Statement (.lw a b f) := ⟨rfl, slice_enc_opcode .., slice_enc_unused ..⟩
theorem sw (a b : Reg) (f : Field16) : Statement (.sw a b f) := ⟨rfl, slice_enc_opcode .., slice_enc_unused ..⟩
theorem beq (a b : Reg) (f : Field16) : Statement (.beq a b f) := ⟨rfl, slice_enc_opcode .., slice_enc_unused ..⟩
theorem jalr (a b : Reg) : Statement (.jalr a b) := ⟨rfl, slice_enc_opcode .., slice_enc_unused ..⟩
theorem halt : Statement .halt := ⟨rfl, slice_enc_opcode .., slice_enc_unused ..⟩
theorem noop : Statement .noop := ⟨rfl, slice_enc_opcode .., slice_enc_unused ..⟩

end Sys2Proof.Laws.OpcodeField
end

