-- ==== Sys2Proof/Laws/Step.lean ====
section
/-! SUPPORT. What a step can do, said once. -/

namespace Sys2Proof.Machine

section
variable {s t : State}

/-- `lw` at an address inside memory. -/
theorem exec_lw_inMemory {a b : Reg} {f : Field16} (h : s.inMemory (s.effectiveAddress a f)) :
    exec (.lw a b f) s =
      .next ((s.writeReg b (s.wordAt (slot (s.effectiveAddress a f)))).complete s.nextPc) := by
  simp [exec, execLw, State.memRead_ok h]

/-- `lw` at an address outside memory. -/
theorem exec_lw_outside {a b : Reg} {f : Field16} (h : ¬ s.inMemory (s.effectiveAddress a f)) :
    exec (.lw a b f) s = .next (s.takeFault (.invalidAddress .load (s.effectiveAddress a f))) := by
  simp [exec, execLw, State.memRead_error h, raise]

/-- `sw` at an address inside memory. -/
theorem exec_sw_inMemory {a b : Reg} {f : Field16} (h : s.inMemory (s.effectiveAddress a f)) :
    exec (.sw a b f) s =
      .next ((s.storeAt (slot (s.effectiveAddress a f)) (s.readReg b)).complete s.nextPc) := by
  simp [exec, execSw, State.memWrite_ok h]

/-- `sw` at an address outside memory. -/
theorem exec_sw_outside {a b : Reg} {f : Field16} (h : ¬ s.inMemory (s.effectiveAddress a f)) :
    exec (.sw a b f) s = .next (s.takeFault (.invalidAddress .store (s.effectiveAddress a f))) := by
  simp [exec, execSw, State.memWrite_error h, raise]

/-- Everything an instruction can do: it completes, storing nothing or one word, or it takes one of the two data
faults. -/
theorem exec_cases (i : Instr) (s : State) :
    (∃ a b d, i = .add a b d ∧
      exec i s = .next ((s.writeReg d (s.readReg a + s.readReg b)).complete s.nextPc)) ∨
    (∃ a b d, i = .nor a b d ∧
      exec i s = .next ((s.writeReg d (~~~(s.readReg a ||| s.readReg b))).complete s.nextPc)) ∨
    (∃ a b f, i = .lw a b f ∧
      ((s.inMemory (s.effectiveAddress a f) ∧
          exec i s = .next ((s.writeReg b (s.wordAt (slot (s.effectiveAddress a f)))).complete s.nextPc)) ∨
        (¬ s.inMemory (s.effectiveAddress a f) ∧
          exec i s = .next (s.takeFault (.invalidAddress .load (s.effectiveAddress a f)))))) ∨
    (∃ a b f, i = .sw a b f ∧
      ((s.inMemory (s.effectiveAddress a f) ∧
          exec i s = .next ((s.storeAt (slot (s.effectiveAddress a f)) (s.readReg b)).complete s.nextPc)) ∨
        (¬ s.inMemory (s.effectiveAddress a f) ∧
          exec i s = .next (s.takeFault (.invalidAddress .store (s.effectiveAddress a f)))))) ∨
    (∃ a b f, i = .beq a b f ∧
      exec i s = .next (s.complete (if s.regsEqual a b then s.branchTarget f else s.nextPc))) ∨
    (∃ a b, i = .jalr a b ∧ exec i s = .next ((s.writeReg b s.nextPc).complete (s.readReg a))) ∨
    (i = .halt ∧ exec i s = .next (s.complete s.nextPc).halt) ∨
    (i = .noop ∧ exec i s = .next (s.complete s.nextPc)) := by
  cases i with
  | add a b d => exact .inl ⟨a, b, d, rfl, rfl⟩
  | nor a b d => exact .inr (.inl ⟨a, b, d, rfl, rfl⟩)
  | lw a b f =>
    refine .inr (.inr (.inl ⟨a, b, f, rfl, ?_⟩))
    by_cases h : s.inMemory (s.effectiveAddress a f)
    · exact .inl ⟨h, exec_lw_inMemory h⟩
    · exact .inr ⟨h, exec_lw_outside h⟩
  | sw a b f =>
    refine .inr (.inr (.inr (.inl ⟨a, b, f, rfl, ?_⟩)))
    by_cases h : s.inMemory (s.effectiveAddress a f)
    · exact .inl ⟨h, exec_sw_inMemory h⟩
    · exact .inr ⟨h, exec_sw_outside h⟩
  | beq a b f => exact .inr (.inr (.inr (.inr (.inl ⟨a, b, f, rfl, rfl⟩))))
  | jalr a b => exact .inr (.inr (.inr (.inr (.inr (.inl ⟨a, b, rfl, rfl⟩)))))
  | halt => exact .inr (.inr (.inr (.inr (.inr (.inr (.inl ⟨rfl, rfl⟩))))))
  | noop => exact .inr (.inr (.inr (.inr (.inr (.inr (.inr ⟨rfl, rfl⟩))))))

/-- A running machine that cannot fetch takes the fetch fault. -/
theorem step_of_unfetchable (hr : s.run = .running) (h : ¬ s.fetchable) :
    step s = .next (s.takeFault (.invalidAddress .fetch s.pc)) := by
  simp [step, hr, State.fetch_error h, raise]

/-- A running machine that can fetch executes the decoded word. -/
theorem step_of_fetchable (hr : s.run = .running) (h : s.fetchable) :
    step s = exec (decode (s.wordAt (slot s.pc))) s := by
  simp [step, hr, State.fetch_ok h]

/-- A state that has a successor is running. -/
theorem running_of_step (h : step s = .next t) : s.run = .running := by
  unfold step at h
  split at h <;> first | assumption | cases h

/-- Everything a step that answers a next state can have done: the fetch fault, or the fetched instruction. -/
theorem step_cases (h : step s = .next t) :
    s.run = .running ∧
      ((¬ s.fetchable ∧ t = s.takeFault (.invalidAddress .fetch s.pc)) ∨
       (s.fetchable ∧ exec (decode (s.wordAt (slot s.pc))) s = .next t)) := by
  have hr := running_of_step h
  refine ⟨hr, ?_⟩
  by_cases hf : s.fetchable
  · exact .inr ⟨hf, by rw [← step_of_fetchable hr hf]; exact h⟩
  · rw [step_of_unfetchable hr hf] at h
    exact .inl ⟨hf, by injection h with h; exact h.symm⟩

/-- A run of one more step. -/
theorem State.runFor_succ_of_step (n : Nat) (h : step s = .next t) : s.runFor (n + 1) = t.runFor n := by
  simp [State.runFor, h]

/-- What every step keeps, every run keeps: the induction over runs, once. -/
theorem State.runFor_induction {P : State → Prop} (hstep : ∀ s t, P s → step s = .next t → P t) (n : Nat) (s : State)
    (hs : P s) : P (s.runFor n) := by
  induction n generalizing s with
  | zero => exact hs
  | succ n ih =>
    unfold State.runFor
    split
    · next t ht => exact ih t (hstep s t hs ht)
    · exact hs
    · exact hs

/-- Placing a word for the next fetch does what it is for, at any pc inside the memory. -/
theorem step_withFetchWord (s : State) (nbits w : Nat) (h : s.inMemory s.pc) :
    step (s.withFetchWord nbits w) = exec (decode (BitVec.ofNat 32 (w % 2 ^ nbits))) (s.withFetchWord nbits w) := by
  have hp : (s.withFetchWord nbits w).pc = s.pc := by simp [State.withFetchWord, h]
  have hf : (s.withFetchWord nbits w).fetchable := by
    have h0 := toInt_eq_slot h.1
    refine ⟨hp ▸ h.1, ?_⟩
    rw [hp, h0]
    simp only [State.withFetchWord, if_pos h]
    omega
  rw [step_of_fetchable rfl hf, hp]
  congr 2
  exact State.wordAt_of_find (by simp only [State.withFetchWord, if_pos h, Memory.find_write, if_true])

end

end Sys2Proof.Machine
end

