-- ==== Sys2Proof/Tests/Slice0.lean ====
section
/-! SUPPORT. The model's own tests: checks of the well-formedness predicates, words written out from the spec's encodings,
one step per instruction with the vectors of spec/95_test_vectors.md (V<n>, E<n>), and for every statement with hypotheses a
state and operands that meet them (witness_<statement>). -/

namespace Sys2Proof.Tests

open Sys2Proof Sys2Proof.Machine

/-- The state an outcome answers, if it answers one. -/
def nextOf : Host.Outcome State Fault Refusal → Option State
  | .next s => some s
  | .fault _ => none
  | .refused _ => none

/-- A machine loaded with an image, its registers and pc set by hand. -/
def machine (image : List Word) (x : Vector Word 8) (pc : Word) : State :=
  { State.loaded Config.default image with x := x, pc := pc }

/-- The same with no image, for tests of `exec` alone. -/
def regs (x : Vector Word 8) (pc : Word) : State := machine [] x pc

def zeros : Vector Word 8 := Vector.replicate 8 0#32

/-! ### Well-formedness: one ill-formed term for each check -/

theorem test_config_limit : Config.wf { memWords := 2147450880, powerOn := 0 } = true := by decide
theorem test_config_refused : Config.wf { memWords := 2147450881, powerOn := 0 } = false := by decide
theorem test_image_refused : Config.imageFits { memWords := 1, powerOn := 0 } [0#32, 0#32] = false := by decide
theorem test_launch_refuses_long_image :
    launch { memWords := 1, powerOn := 0 } [0#32, 0#32] = .error .imageTooLong := by decide
theorem test_launch_refuses_large_memory :
    launch { memWords := 2147450881, powerOn := 0 } [] = .error .memoryTooLarge := by decide
theorem test_canonical_refused_rtype : canonical 0x000A0009#32 = false := by decide
theorem test_canonical_refused_top_bits : canonical 0x02810005#32 = false := by decide
theorem test_canonical_refused_jalr : canonical 0x0177ABCD#32 = false := by decide
theorem test_label_refused_length : validLabel "toolong" = false := by decide
theorem test_label_refused_digit_first : validLabel "1abc" = false := by decide
theorem test_label_refused_character : validLabel "a_b" = false := by decide
theorem test_label_accepted : validLabel "abcdef" = true := by decide

/-! ### Decoding: words written out bit by bit from R69's encoding strings -/

theorem test_decode_add : decode 0b00000000000010100000000000000011#32 = .add 1 2 3 := by decide
theorem test_decode_nor : decode 0b00000000010111000000000000000101#32 = .nor 3 4 5 := by decide
theorem test_decode_lw : decode 0b00000000100100111111111111111111#32 = .lw 2 3 0xFFFF#16 := by decide
theorem test_decode_sw : decode 0b00000000110010101000000000000000#32 = .sw 1 2 0x8000#16 := by decide
theorem test_decode_beq : decode 0b00000001000000011111111111111101#32 = .beq 0 1 0xFFFD#16 := by decide
theorem test_decode_jalr : decode 0b00000001011101110000000000000000#32 = .jalr 6 7 := by decide
theorem test_decode_halt : decode 0b00000001100000000000000000000000#32 = .halt := by decide
theorem test_decode_noop : decode 0b00000001110000000000000000000000#32 = .noop := by decide
/-- V18, V19, V20: bits 31:25 are ignored. -/
theorem test_decode_ignores_top_bits :
    decode 0x02810005#32 = .lw 0 1 5 ∧ decode 0xFF800000#32 = .halt ∧ decode 0xFE000000#32 = .add 0 0 0 := by decide
theorem test_encode_words :
    encode (.add 1 2 3) = 655363#32 ∧ encode (.nor 3 4 5) = 6029317#32 ∧ encode (.lw 0 1 7) = 8454151#32 ∧
    encode (.sw 6 5 0xFFFF#16) = 16121855#32 ∧ encode (.beq 0 0 0xFFFD#16) = 16842749#32 ∧
    encode (.jalr 6 7) = 24576000#32 := by decide
theorem test_decodeTableWord : decodeTableWord 32 0x01770000 = some (.jalr 6 7) ∧ decodeTableWord 40 0 = none := by
  decide

/-! ### One step of each instruction -/

/-- V22: signed overflow wraps. -/
theorem test_add_wraps :
    (nextOf (exec (.add 1 2 3) (regs #v[0, 0x7FFFFFFF, 1, 0, 0, 0, 0, 0] 4#32))).map (fun t => (t.readReg 3, t.pc)) =
      some (0x80000000#32, 5#32) := by decide
/-- V26, V27: a source that is the destination, and register 0 written. -/
theorem test_add_in_place_and_register_zero :
    (nextOf (exec (.add 1 1 1) (regs #v[0, 21, 0, 0, 0, 0, 0, 0] 0#32))).map (fun t => t.readReg 1) = some 42#32 ∧
    (nextOf (exec (.add 1 2 0) (regs #v[0, 3, 4, 0, 0, 0, 0, 0] 0#32))).map (fun t => t.readReg 0) = some 7#32 := by
  decide
/-- V34. -/
theorem test_nor :
    (nextOf (exec (.nor 1 2 3) (regs #v[0, 0x12345678, 0x0000FFFF, 0, 0, 0, 0, 0] 0#32))).map (fun t => t.readReg 3) =
      some 0xEDCB0000#32 := by decide
/-- V43: the base is read before it is overwritten. -/
theorem test_lw_base_is_destination :
    (nextOf (exec (.lw 1 1 0) ((regs #v[0, 9, 0, 0, 0, 0, 0, 0] 0#32).storeAt 9 77#32))).map
      (fun t => (t.readReg 1, t.pc, t.icount)) = some (77#32, 1#32, 1) := by decide
/-- V40: the address wraps to a negative Word and faults; nothing else changes. -/
theorem test_lw_faults :
    nextOf (exec (.lw 2 1 1) (regs #v[0, 0, 0x7FFFFFFF, 0, 0, 0, 0, 0] 6#32)) =
      some { regs #v[0, 0, 0x7FFFFFFF, 0, 0, 0, 0, 0] 6#32 with
        run := .faulted, faultInfo := some (.invalidAddress .load 0x80000000#32) } := by decide
/-- V44. -/
theorem test_sw :
    (nextOf (exec (.sw 6 5 0xFFFF#16) (regs #v[0, 0, 0, 0, 0, 15, 12, 0] 0#32))).map (fun t => t.mem.cells) =
      some [(11, 15#32)] := by decide
/-- V46. -/
theorem test_sw_faults :
    (nextOf (exec (.sw 0 1 0xFFFF#16) (regs zeros 0#32))).map (fun t => (t.run, t.faultInfo, t.mem.cells, t.icount)) =
      some (.faulted, some (.invalidAddress .store 0xFFFFFFFF#32), [], 0) := by decide
/-- V50, V51. -/
theorem test_beq_taken_and_not :
    (nextOf (exec (.beq 0 1 2) (regs zeros 3#32))).map (fun t => t.pc) = some 6#32 ∧
    (nextOf (exec (.beq 0 1 2) (regs #v[0, 4, 0, 0, 0, 0, 0, 0] 3#32))).map (fun t => t.pc) = some 4#32 := by decide
/-- V52, V56: backward to itself, and below zero without a fault in this step. -/
theorem test_beq_backward :
    (nextOf (exec (.beq 0 0 0xFFFF#16) (regs zeros 10#32))).map (fun t => t.pc) = some 10#32 ∧
    (nextOf (exec (.beq 0 0 0x8000#16) (regs zeros 0#32))).map (fun t => (t.pc, t.run)) =
      some (0xFFFF8001#32, .running) := by decide
/-- V60: the target is read before the link is written. -/
theorem test_jalr_same_register :
    (nextOf (exec (.jalr 3 3) (regs #v[0, 0, 0, 20, 0, 0, 0, 0] 10#32))).map (fun t => (t.pc, t.readReg 3)) =
      some (20#32, 11#32) := by decide
/-- V64, E3. -/
theorem test_halt :
    (nextOf (step (State.loaded Config.default [25165824#32]))).map (fun t => (t.run, t.pc, t.icount)) =
      some (.halted, 1#32, 1) := by decide
theorem test_noop :
    (nextOf (exec .noop (regs zeros 5#32))).map (fun t => (t.pc, t.run, t.icount)) = some (6#32, .running, 1) := by
  decide
/-- V67, and V66's second step: the fetch fault. -/
theorem test_fetch_faults :
    (nextOf (step State.reset)).map (fun t => (t.run, t.faultInfo, t.icount)) =
      some (.faulted, some (.invalidAddress .fetch 0#32), 0) ∧
    (nextOf (step (machine [29360128#32] zeros 1#32))).map (fun t => t.faultInfo) =
      some (some (.invalidAddress .fetch 1#32)) := by decide
/-- V69: no step from an ended machine. -/
theorem test_no_step_when_ended :
    nextOf (step { State.reset with run := .halted }) = none ∧
    nextOf (step { State.reset with run := .faulted }) = none := by decide
/-- R57 in one step: the word a store put at pc 0 is what the next fetch decodes. -/
theorem test_store_is_fetched :
    (nextOf (step ((machine [25165824#32] zeros 0#32).storeAt 0 29360128#32))).map (fun t => t.run) =
      some .running := by decide
theorem test_withFetchWord_runs :
    (nextOf (step (State.reset.withFetchWord 32 0x01770000))).map (fun t => (t.readReg 7, t.icount)) =
      some (1#32, 1) := by decide
theorem test_withFetchWord_is_launch :
    State.reset.withFetchWord 32 25165824 = State.loaded Config.default [25165824#32] := by decide

/-! ### The encoder -/

/-- E1 with V85. -/
theorem test_assemble_fill_label :
    assemble [⟨"", "lw", "0", "1", "five"⟩, ⟨"", "halt", "", "", ""⟩, ⟨"five", ".fill", "5", "", ""⟩] =
      .ok [8454149#32, 25165824#32, 5#32] := by decide
/-- E2. -/
theorem test_assemble_beq_label :
    assemble [⟨"", "beq", "0", "0", "label"⟩, ⟨"", "halt", "", "", ""⟩, ⟨"label", "noop", "", "", ""⟩] =
      .ok [16777217#32, 25165824#32, 29360128#32] := by decide
/-- V96, V97: forward references of `.fill`. -/
theorem test_fill_forward :
    assemble [⟨"a", ".fill", "b", "", ""⟩, ⟨"b", ".fill", "3", "", ""⟩] = .error .undefinedLabel ∧
    assemble [⟨"", ".fill", "later", "", ""⟩, ⟨"later", "halt", "", "", ""⟩] = .ok [1#32, 25165824#32] := by decide
/-- V105, V106: the order of errors. -/
theorem test_error_order :
    assemble [⟨"x", "noop", "", "", ""⟩, ⟨"x", "bogus", "", "", ""⟩] = .error .duplicateLabel ∧
    assemble [⟨"1abc", ".fill", "nolbl", "", ""⟩] = .error .undefinedLabel := by decide
/-- V73, V74, V76, V77. -/
theorem test_operand_errors :
    assemble [⟨"", "add", "1", "2", "65539"⟩] = .ok [655363#32] ∧
    assemble [⟨"", "add", "1", "2", "x"⟩] = .error .nonIntegerRegister ∧
    assemble [⟨"", "add", "x", "9", "0"⟩] = .error .nonIntegerRegister ∧
    assemble [⟨"", "ADD", "1", "2", "3"⟩] = .error .unknownOpcode := by decide
/-- V79 to V82, V93, V94: the ranges. -/
theorem test_ranges :
    assemble [⟨"", "lw", "0", "1", "32767"⟩] = .ok [8486911#32] ∧
    assemble [⟨"", "lw", "0", "1", "32768"⟩] = .error .offsetRange ∧
    assemble [⟨"", "lw", "0", "1", "-32768"⟩] = .ok [8486912#32] ∧
    assemble [⟨"", ".fill", "2147483648", "", ""⟩] = .error .fillRange ∧
    assemble [⟨"", ".fill", "-2147483648", "", ""⟩] = .ok [0x80000000#32] := by decide
theorem test_numeric_tokens :
    numericValue "+5" = some 5 ∧ numericValue "-007" = some (-7) ∧ numericValue "" = none ∧ numericValue "-" = none ∧
    numericValue "0x5" = none := by decide

/-! ### Witnesses: a state and operands that meet each statement's hypotheses -/

/-- A running machine with a one-word image; its state meets the invariant. -/
def one (w : Word) : State := State.loaded Config.default [w]

theorem one_find (w : Word) (a : Nat) : (one w).mem.find a = if a = 0 then some w else none := by
  rw [one, State.loaded_find]
  cases a <;> simp

theorem one_inv (w : Word) : (one w).Inv where
  configOk := by show Config.wf Config.default = true; decide
  loadedFits := by show 1 ≤ 65536; decide
  memoryWf := by simp [one, State.loaded, imageCells, Memory.wf]
  memoryInside := fun a h => by
    rw [one_find] at h
    split at h
    · next e => subst e; show 0 < 65536; decide
    · exact absurd rfl h
  imageListed := fun a h => by
    have : a = 0 := by
      have : a < 1 := h
      omega
    simp [one_find, this]
  faultRecorded := by simp [one, State.loaded]
  faultJustified := by simp [one, State.loaded]
  haltJustified := by simp [one, State.loaded]

theorem witness_InvariantIsKeptByEveryStep : (one 25165824#32).Inv ∧ ∃ t, step (one 25165824#32) = .next t :=
  ⟨one_inv _, _, rfl⟩
theorem witness_PcIncrementNeverWraps : (one 0#32).Inv ∧ (one 0#32).fetchable := ⟨one_inv _, by decide⟩
theorem witness_InvariantHoldsAfterLaunch :
    launch { memWords := 1, powerOn := 7 } [29360128#32] =
      .ok (State.loaded { memWords := 1, powerOn := 7 } [29360128#32]) := by decide
theorem witness_OffsetIsTheSignedField : opcodeOf 0x000A0003#32 = .add ∧ opcodeOf 0x005C0005#32 = .nor := by decide
theorem witness_IgnoredBitsChangeNothing :
    (0x02810005#32).extractLsb 24 0 = (0x00810005#32).extractLsb 24 0 ∧
    (opcodeOf 0x000A0009#32 = .add ∧ (0x000A0009#32).extractLsb 24 16 = (0x000A0001#32).extractLsb 24 16 ∧
      (0x000A0009#32).extractLsb 2 0 = (0x000A0001#32).extractLsb 2 0) ∧
    (opcodeOf 0x0177ABCD#32 = .jalr ∧ (0x0177ABCD#32).extractLsb 24 16 = (0x01770000#32).extractLsb 24 16) ∧
    (opcodeOf 0x01BFFFFF#32 = .halt ∧ (0x01BFFFFF#32).extractLsb 24 22 = (0x01800000#32).extractLsb 24 22) := by decide
theorem witness_DecodeOfEncodeIsTheInstruction : Instr.wf (.sw 7 7 0x8000#16) = true := by decide
theorem witness_AgreementOfEncAndDecoder_bounds :
    (decoderOutputs (enc .lw 7 7 (-32768))).offset.toInt = -32768 ∧
    (decoderOutputs (enc .beq 0 0 32767)).offset.toInt = 32767 := by decide
theorem witness_StepRunsTheDecodedInstruction :
    let s := one 24576000#32
    s.run = .running ∧ 0 ≤ s.pc.toInt ∧ s.pc.toInt < s.numLoaded ∧ decode (s.wordAt s.pc.toNat) = .jalr 6 7 := by decide
theorem witness_StepIsTheListing : (one 24576000#32).run = .running := by decide
/-- The clauses at their boundary: pc 0 of one word (the last, and a `halt`), pc 1 just outside it, pc -1. -/
theorem witness_FetchOutsideTheImageFaults :
    (let s := one 25165824#32; s.run = .running ∧ 0 ≤ s.pc.toInt ∧ s.pc.toInt < s.numLoaded ∧
      s.pc.toInt + 1 = s.numLoaded ∧ decode (s.wordAt s.pc.toNat) = .halt) ∧
    (let s := machine [25165824#32] zeros 1#32; (s.numLoaded : Int) ≤ s.pc.toInt) ∧
    (let s := machine [25165824#32] zeros 0xFFFFFFFF#32; s.pc.toInt < 0) := by decide
theorem witness_StepExistsExactlyWhileRunning :
    State.reset.run = .running ∧ ({ State.reset with run := .halted } : State).run ≠ .running := by decide
/-- A step that completes and one that faults: hypotheses of the statements about one step of a running machine. -/
theorem witness_StepCompletesOrFaultsNeverBoth :
    ((one 29360128#32).run = .running ∧ (nextOf (step (one 29360128#32))).map (fun t => t.run) = some .running) ∧
    (State.reset.run = .running ∧ (nextOf (step State.reset)).map (fun t => t.run) = some .faulted) := by decide
/-- Each of the three faults is raised by a running machine: `lw 0 0 -1`, `sw 0 0 -1`, and the empty image. -/
theorem witness_FaultsExactlyOnTheThreeAddressErrors :
    (nextOf (step (one 0x0080FFFF#32))).map (fun t => t.faultInfo) =
      some (some (.invalidAddress .load 0xFFFFFFFF#32)) ∧
    (nextOf (step (one 0x00C0FFFF#32))).map (fun t => t.faultInfo) =
      some (some (.invalidAddress .store 0xFFFFFFFF#32)) ∧
    (nextOf (step State.reset)).map (fun t => t.faultInfo) = some (some (.invalidAddress .fetch 0#32)) := by decide
theorem witness_FaultEntryIsPrecise :
    State.reset.run = .running ∧ (nextOf (step State.reset)).map (fun t => t.run) = some .faulted := by decide
theorem witness_InvalidOpcodeIsUnreachable :
    (nextOf (step (one 0#32))).isSome = true ∧ (one 0#32).faultInfo ≠ some .invalidOpcode := by decide
theorem witness_EndedRunNeverResumes : ((one 25165824#32).runFor 1).run ≠ .running := by decide
theorem witness_ExhaustedFuelIsNoEnd :
    (one 25165824#32).result 0 = none ∧
    ((one 25165824#32).result 1).map (fun o => (o.run, o.icount)) = some (.halted, 1) := by decide
theorem witness_HaltingRunNeverFaults : (one 25165824#32).EndsHalted := ⟨1, by decide⟩
theorem witness_HaltedExactlyByAHaltWord :
    (one 25165824#32).run = .running ∧ (nextOf (step (one 25165824#32))).map (fun t => t.run) = some .halted ∧
    (nextOf (step (one 29360128#32))).map (fun t => t.run) = some .running := by decide
theorem witness_NothingReadsTheCountOrTheRecord :
    (one 29360128#32).run = .running ∧ (nextOf (step (one 29360128#32))).isSome = true := by decide
theorem witness_LoadedCountIsConstant :
    launch Config.default [0#32] = .ok (one 0#32) ∧ (nextOf (exec .noop (one 0#32))).isSome = true := by decide
/-- `lw 0 1 0` with a one-word image: the loaded word is listed. -/
theorem witness_UnloadedContentsMatterOnlyToLoads :
    let s := one 0x00810000#32
    s.run = .running ∧ (∀ a, a < s.numLoaded → s.mem.find a ≠ none) ∧ decode (s.wordAt s.pc.toNat) = .lw 0 1 0 ∧
      s.inMemory (s.effectiveAddress 0 0) ∧ s.mem.find (slot (s.effectiveAddress 0 0)) ≠ none ∧
      (nextOf (step s)).isSome = true := by decide
/-- A word of each opcode, the hypothesis of the encoding clause of each instruction's statement. -/
theorem witness_opcode_clauses :
    (0xFE000000#32).extractLsb 24 22 = 0#3 ∧ (0x005C0005#32).extractLsb 24 22 = 1#3 ∧
    (0x00BF7FFF#32).extractLsb 24 22 = 2#3 ∧ (0x00CA8000#32).extractLsb 24 22 = 3#3 ∧
    (0x0100FFFD#32).extractLsb 24 22 = 4#3 ∧ (0x0177ABCD#32).extractLsb 24 22 = 5#3 ∧
    (0x01BFFFFF#32).extractLsb 24 22 = 6#3 ∧ (0xFFFFFFFF#32).extractLsb 24 22 = 7#3 := by decide
/-- The two clauses of `lw` and `sw` at the boundary: 65535 is the last word, 65536 and -1 are outside. -/
theorem witness_LwLoadsTheWordOrFaults :
    (let s := regs #v[0, 0, 65536, 0, 0, 0, 0, 0] 0#32
     0 ≤ (s.readReg 2 + sext32 0xFFFF#16).toInt ∧ (s.readReg 2 + sext32 0xFFFF#16).toInt < s.cfg.memWords ∧
     (s.cfg.memWords : Int) ≤ (s.readReg 2 + sext32 0).toInt ∧ (s.readReg 0 + sext32 0xFFFF#16).toInt < 0) := by decide
theorem witness_SwStoresTheWordOrFaults :
    (let s := regs #v[0, 0, 65535, 0, 0, 0, 0, 0] 0#32
     0 ≤ (s.readReg 2 + sext32 0).toInt ∧ (s.readReg 2 + sext32 0).toInt < s.cfg.memWords ∧
     (s.cfg.memWords : Int) ≤ (s.readReg 2 + sext32 1).toInt ∧ (s.readReg 0 + sext32 0x8000#16).toInt < 0) := by decide
theorem witness_BeqBranchesOnEquality :
    (regs zeros 0#32).readReg 0 = (regs zeros 0#32).readReg 1 ∧
    (regs #v[0, 4, 0, 0, 0, 0, 0, 0] 0#32).readReg 0 ≠ (regs #v[0, 4, 0, 0, 0, 0, 0, 0] 0#32).readReg 1 := by decide
/-- `jalr 0 0` writes the link 1 to register 0. -/
theorem witness_RegistersChangeOnlyThroughTheirSelector :
    (one 0x01400000#32).run = .running ∧ (one 0x01400000#32).readReg 0 = 0#32 ∧
    (nextOf (step (one 0x01400000#32))).map (fun t => t.readReg 0) = some 1#32 := by decide
theorem witness_MemoryPrimitivesFollowTheirRules :
    State.reset.inMemory 65535#32 ∧ (State.reset.cfg.memWords : Int) ≤ (65536#32).toInt ∧
    (0xFFFFFFFF#32).toInt < 0 := by decide
theorem witness_WrappedAddressAgreesWithUnboundedSum :
    State.reset.cfg.wf = true ∧ State.reset.inMemory (State.reset.effectiveAddress 0 0x7FFF#16) := by decide
/-- Both clauses: address 0 is inside the one-word image, address 1 is data only. -/
theorem witness_StoreIsSeenByTheNextFetch :
    (one 0#32).inMemory ((one 0#32).effectiveAddress 0 0) ∧
    ((one 0#32).effectiveAddress 0 0).toInt < (one 0#32).numLoaded ∧
    (one 0#32).inMemory ((one 0#32).effectiveAddress 0 1) ∧
    ¬ ((one 0#32).effectiveAddress 0 1).toInt < (one 0#32).numLoaded := by decide
theorem witness_UnwrittenWordKeepsItsValue : ((one 29360128#32).runFor 1).mem.find 1 = none := by decide
theorem witness_OnlyLoadAndStoreReachMemory :
    noDataAccess (.jalr 6 7) = true ∧ (nextOf (exec (.jalr 6 7) State.reset)).isSome = true ∧
    (nextOf (exec (.lw 0 0 0) State.reset)).isSome = true := by decide
theorem witness_LaunchLoadsTheImage :
    Config.wf { memWords := 1, powerOn := 0 } = true ∧ [0#32].length ≤ 1 ∧ 1 < [0#32, 0#32].length := by decide
theorem witness_LabelTableInsertAndResolve :
    validLabel "a_b" = false ∧ (validLabel "a" = true ∧ tableFind [("a", 1)] "a" ≠ none) ∧ tableFind [("a", 1)] "b" = none ∧
    pass1 0 [] [⟨"a", "noop", "", "", ""⟩] = .ok [("a", 0)] := by decide
theorem witness_LabelValueIsAddressOrFilledValue :
    pass1 0 [] [⟨"a", "noop", "", "", ""⟩, ⟨"b", ".fill", "7", "", ""⟩] = .ok [("b", 7), ("a", 0)] ∧
    numericValue "2147483647" = some (2 ^ 31 - 1) ∧ numericValue "2147483648" = some (2 ^ 31) ∧
    numericValue "a" = none := by decide
theorem witness_LabelTableIsAMapOfTheLabels :
    pass1 0 [] [⟨"a", "noop", "", "", ""⟩, ⟨"", "halt", "", "", ""⟩, ⟨"b", ".fill", "a", "", ""⟩] =
      .ok [("b", 0), ("a", 0)] := by decide
theorem witness_ForwardFillReferenceFails :
    numericValue "b" = none ∧ pass1 0 [] ([(⟨"a", ".fill", "b", "", ""⟩ : Line), ⟨"b", "noop", "", "", ""⟩].take 0) = .ok [] := by
  decide
theorem witness_DuplicateLabelsNeverAssemble :
    pass1 0 [] ([(⟨"x", "noop", "", "", ""⟩ : Line), ⟨"x", "halt", "", "", ""⟩].take 1) = .ok [("x", 0)] ∧
    labelValue 1 [("x", 0)] ⟨"x", "halt", "", "", ""⟩ = .ok 1 := by decide
theorem witness_RegisterOperandIsCheckedBothWays :
    numericValue "r0" = none ∧ numericValue "0" = some 0 ∧ numericValue "7" = some 7 ∧ numericValue "8" = some 8 ∧
    numericValue "-1" = some (-1) := by decide
/-- The three ways an offset is given, and the absent label. -/
theorem witness_OffsetOperandIsRangeChecked :
    mnemonicOf "lw" = some (.instr .lw) ∧ mnemonicOf "beq" = some (.instr .beq) ∧ regOperand "0" = .ok 0 ∧
    numericValue "32768" = some 32768 ∧ (numericValue "a" = none ∧ (∃ v, resolve [("a", 2)] "a" = .ok v ∧ v.toInt = 2)) ∧
    (∃ v, resolve [("a", 2)] "a" = .ok v ∧ v.toInt = 1 + ((0 : Nat) + 1)) ∧ tableFind [("a", 2)] "b" = none :=
  ⟨by decide, by decide, by decide, by decide, ⟨by decide, 2, by decide, by decide⟩, ⟨2, by decide, by decide⟩, by decide⟩
theorem witness_AssembledBranchLandsOnItsLabel :
    mnemonicOf "beq" = some (.instr .beq) ∧
    encodeLine 0 [("label", 2)] ⟨"", "beq", "0", "0", "label"⟩ = .ok 16777217#32 ∧
    resolve [("label", 2)] "label" = .ok 2 ∧ State.reset.pc = BitVec.ofNat 32 0 ∧
    encodeLine 0 [] ⟨"", "beq", "0", "0", "-32768"⟩ = .ok 16809984#32 ∧ numericValue "-32768" = some (-32768) := by decide
theorem witness_ImageDecodesToItsLines :
    assemble [⟨"", "sw", "6", "5", "-1"⟩, ⟨"", "add", "1", "2", "9"⟩] = .ok [16121855#32, 655369#32] ∧
    mnemonicOf "sw" = some (.instr .sw) ∧ mnemonicOf "add" = some (.instr .add) := by decide

end Sys2Proof.Tests
end

section
/-! SUPPORT. The invariant, one rule per state operation, and every step (10_state.md R26 to R31). -/

namespace Sys2Proof.Machine

section
variable {s t : State}

/-- While a machine runs no fault is recorded (R29). -/
theorem State.Inv.faultInfo_of_running (hs : s.Inv) (hr : s.run = .running) : s.faultInfo = none := by
  by_contra hne
  simp [hs.faultRecorded.mpr hne] at hr

/-- A running state meets the invariant when its parameters and its memory do and nothing is recorded: the clauses on
the two ends of a run say nothing about it. -/
theorem State.inv_of_running (hcfg : s.cfg.wf = true) (hload : s.numLoaded ≤ s.cfg.memWords) (hwf : s.mem.wf)
    (hin : ∀ a, s.mem.find a ≠ none → a < s.cfg.memWords) (himg : ∀ a, a < s.numLoaded → s.mem.find a ≠ none)
    (hr : s.run = .running) (hf : s.faultInfo = none) : s.Inv where
  configOk := hcfg
  loadedFits := hload
  memoryWf := hwf
  memoryInside := hin
  imageListed := himg
  faultRecorded := by simp [hr, hf]
  faultJustified := by simp [hf]
  haltJustified := by simp [hr]

section
variable (hs : s.Inv) (hr : s.run = .running)
include hs hr

theorem State.Inv.writeReg (i : Reg) (v : Word) : (s.writeReg i v).Inv :=
  inv_of_running hs.configOk hs.loadedFits hs.memoryWf hs.memoryInside hs.imageListed hr
    (hs.faultInfo_of_running hr)

theorem State.Inv.complete (p : Word) : (s.complete p).Inv :=
  inv_of_running hs.configOk hs.loadedFits hs.memoryWf hs.memoryInside hs.imageListed hr
    (hs.faultInfo_of_running hr)

/-- A store inside memory lists one word more, inside memory, and takes none off the list (R30). -/
theorem State.Inv.storeAt {addr : Word} (h : s.inMemory addr) (v : Word) : (s.storeAt (slot addr) v).Inv := by
  refine inv_of_running hs.configOk hs.loadedFits (wf_storeAt hs.memoryWf _ v) (fun a ha => ?_) (fun a ha => ?_) hr
    (hs.faultInfo_of_running hr)
  · by_cases he : slot addr = a
    · have hlt : addr.toInt < s.cfg.memWords := h.2
      rw [toInt_eq_slot h.1, he] at hlt
      exact_mod_cast hlt
    · exact hs.memoryInside a (by simpa [he] using ha)
  · by_cases he : slot addr = a
    · simp [he]
    · simpa [he] using hs.imageListed a ha

theorem State.Inv.halt (h : HaltJustified s) : s.halt.Inv where
  configOk := hs.configOk
  loadedFits := hs.loadedFits
  memoryWf := hs.memoryWf
  memoryInside := hs.memoryInside
  imageListed := hs.imageListed
  faultRecorded := by simp [hs.faultInfo_of_running hr]
  faultJustified := by simp [hs.faultInfo_of_running hr]
  haltJustified := fun _ => h

end

/-- What justifies a record is read from fields that taking the fault leaves alone (R184), so it may be said of the state
before. -/
theorem State.Inv.takeFault (hs : s.Inv) {r : FaultRecord} (h : FaultJustified s r) : (s.takeFault r).Inv where
  configOk := hs.configOk
  loadedFits := hs.loadedFits
  memoryWf := hs.memoryWf
  memoryInside := hs.memoryInside
  imageListed := hs.imageListed
  faultRecorded := by simp
  faultJustified := fun r' hr' => by
    obtain rfl : r = r' := by simpa using hr'
    match r, h with
    | .invalidAddress .fetch _, h => exact h
    | .invalidAddress .load _, h => exact h
    | .invalidAddress .store _, h => exact h
  haltJustified := by simp

/-- The `halt` word just executed justifies the end: it stands at the old `pc`, inside the image (R130). -/
theorem haltJustified_complete (hf : s.fetchable) (hd : decode (s.wordAt (slot s.pc)) = .halt) :
    HaltJustified (s.complete s.nextPc) := by
  obtain ⟨hpos, hlt⟩ := hf
  refine ⟨by simp, slot s.pc, ?_, ?_, hd⟩
  · rw [toInt_eq_slot hpos] at hlt
    exact_mod_cast hlt
  · rw [slot_eq_toNat hpos, BitVec.ofNat_add, BitVec.ofNat_toNat, BitVec.setWidth_eq]
    rfl

/-- The fetched instruction keeps the invariant. -/
theorem State.Inv.of_exec {i : Instr} (hs : s.Inv) (hr : s.run = .running) (hf : s.fetchable)
    (hd : decode (s.wordAt (slot s.pc)) = i) (h : exec i s = .next t) : t.Inv := by
  cases i with
  | add | nor | jalr =>
    obtain rfl := Host.Outcome.next.inj h
    exact (hs.writeReg hr _ _).complete hr _
  | lw a b f =>
    by_cases hm : s.inMemory (s.effectiveAddress a f)
    · obtain rfl := Host.Outcome.next.inj ((exec_lw_inMemory hm).symm.trans h)
      exact (hs.writeReg hr _ _).complete hr _
    · obtain rfl := Host.Outcome.next.inj ((exec_lw_outside hm).symm.trans h)
      exact hs.takeFault ⟨hf, hm, a, b, f, hd, rfl⟩
  | sw a b f =>
    by_cases hm : s.inMemory (s.effectiveAddress a f)
    · obtain rfl := Host.Outcome.next.inj ((exec_sw_inMemory hm).symm.trans h)
      exact (hs.storeAt hr hm _).complete hr _
    · obtain rfl := Host.Outcome.next.inj ((exec_sw_outside hm).symm.trans h)
      exact hs.takeFault ⟨hf, hm, a, b, f, hd, rfl⟩
  | beq | noop =>
    obtain rfl := Host.Outcome.next.inj h
    exact hs.complete hr _
  | halt =>
    obtain rfl := Host.Outcome.next.inj h
    exact (hs.complete hr _).halt hr (haltJustified_complete hf hd)

end

/-! ### The increment of `pc` -/

/-- A fetchable `pc` addresses a word of memory, so it stays below the limit of MEM_WORDS (R5). -/
theorem State.Inv.pc_lt_maxMemWords {s : State} (hs : s.Inv) (hf : s.fetchable) : s.pc.toNat < maxMemWords := by
  obtain ⟨hpos, hlt⟩ := hf
  rw [toInt_eq_slot hpos, slot_eq_toNat hpos] at hlt
  have hlimit : s.cfg.memWords ≤ maxMemWords := of_decide_eq_true hs.configOk
  have hload := hs.loadedFits
  omega

/-- Below the largest signed number the following address is the successor (R26). -/
theorem State.nextPc_of_lt {s : State} (h : s.pc.toNat < 2 ^ 31 - 1) :
    s.nextPc.toInt = s.pc.toInt + 1 ∧ s.nextPc.toNat = s.pc.toNat + 1 := by
  have hnat : s.nextPc.toNat = s.pc.toNat + 1 := by
    rw [State.nextPc, BitVec.toNat_add_of_lt (by simp; omega)]
    rfl
  refine ⟨?_, hnat⟩
  rw [BitVec.toInt_eq_toNat_of_lt (by omega), BitVec.toInt_eq_toNat_of_lt (by omega), hnat]
  rfl

/-- Settles O42: the invariant step by step, from one rule for each operation a step is made of. -/
theorem invariantIsKeptByEveryStep : Obligations.InvariantIsKeptByEveryStep := by
  intro s t hs h
  obtain ⟨hr, ⟨hf, rfl⟩ | ⟨hf, he⟩⟩ := step_cases h
  · exact hs.takeFault ⟨rfl, hf⟩
  · exact hs.of_exec hr hf rfl he

/-- Settles O43: a fetchable `pc` is far below the largest signed number. -/
theorem pcIncrementNeverWraps : Obligations.PcIncrementNeverWraps := by
  intro s hs hf
  have hlt := hs.pc_lt_maxMemWords hf
  rw [maxMemWords] at hlt
  exact State.nextPc_of_lt (by omega)

end Sys2Proof.Machine
end

section
/-! SUPPORT. What no instruction reads (10_state.md R28, R29, R31) and which register a step changes (R22, R23). -/

namespace Sys2Proof.Machine

/-! ### The instruction count and the fault record -/

/-- The state with another instruction count and another fault record. -/
def State.withHistory (s : State) (k : Nat) (fi : Option FaultRecord) : State := { s with icount := k, faultInfo := fi }

/-- What `t`, a state reached from `s`, is when `s` had another count and record: the count moves by the same amount, and
the old record stays where no fault is taken. -/
def State.rebased (t s : State) (k : Nat) (fi : Option FaultRecord) : State :=
  t.withHistory (k + (t.icount - s.icount)) (if t.run = .faulted then t.faultInfo else fi)

section
variable {s t : State} {k : Nat} {fi : Option FaultRecord}

/-- A state that counts one instruction more and is not Faulted. -/
theorem State.rebased_of_counted (hr : t.run ≠ .faulted) (hc : t.icount = s.icount + 1) :
    t.rebased s k fi = t.withHistory (k + 1) fi := by
  simp [State.rebased, hr, hc]

/-- A fault replaces the record and leaves the count, whichever they were (R184). -/
theorem State.rebased_takeFault (r : FaultRecord) :
    (s.takeFault r).rebased s k fi = (s.withHistory k fi).takeFault r := by
  simp [State.rebased, State.withHistory, State.takeFault]

/-- No instruction reads the count or the record. -/
theorem exec_withHistory {i : Instr} (hr : s.run = .running) (h : exec i s = .next t) :
    exec i (s.withHistory k fi) = .next (t.rebased s k fi) := by
  cases i with
  | lw a b f =>
    by_cases hm : s.inMemory (s.effectiveAddress a f)
    · obtain rfl := Host.Outcome.next.inj ((exec_lw_inMemory hm).symm.trans h)
      rw [State.rebased_of_counted (by simp [hr]) (by simp)]
      exact exec_lw_inMemory (s := s.withHistory k fi) hm
    · obtain rfl := Host.Outcome.next.inj ((exec_lw_outside hm).symm.trans h)
      rw [State.rebased_takeFault]
      exact exec_lw_outside (s := s.withHistory k fi) hm
  | sw a b f =>
    by_cases hm : s.inMemory (s.effectiveAddress a f)
    · obtain rfl := Host.Outcome.next.inj ((exec_sw_inMemory hm).symm.trans h)
      rw [State.rebased_of_counted (by simp [hr]) (by simp)]
      exact exec_sw_inMemory (s := s.withHistory k fi) hm
    · obtain rfl := Host.Outcome.next.inj ((exec_sw_outside hm).symm.trans h)
      rw [State.rebased_takeFault]
      exact exec_sw_outside (s := s.withHistory k fi) hm
  | add | nor | beq | jalr | noop =>
    obtain rfl := Host.Outcome.next.inj h
    rw [State.rebased_of_counted (by simp [hr]) (by simp)]
    rfl
  | halt =>
    obtain rfl := Host.Outcome.next.inj h
    rw [State.rebased_of_counted (by simp) (by simp)]
    rfl

end

/-- Settles O21: neither the fetch nor an instruction reads the count or the record. -/
theorem nothingReadsTheCountOrTheRecord : Obligations.NothingReadsTheCountOrTheRecord := by
  intro s t k fi hr h
  show step (s.withHistory k fi) = .next (t.rebased s k fi)
  obtain ⟨-, ⟨hf, rfl⟩ | ⟨hf, he⟩⟩ := step_cases h
  · rw [State.rebased_takeFault]
    exact step_of_unfetchable (s := s.withHistory k fi) hr hf
  · exact (step_of_fetchable (s := s.withHistory k fi) hr hf).trans (exec_withHistory hr he)

/-! ### The loaded-word count -/

/-- A launch that is not refused is the loaded state. -/
theorem launch_ok {cfg : Config} {image : List Word} {s : State} (h : launch cfg image = .ok s) :
    s = State.loaded cfg image := by
  unfold launch at h
  split at h
  · cases h
  · split at h
    · cases h
    · injection h with h
      exact h.symm

/-- No instruction changes the loaded-word count or the parameters. -/
theorem exec_numLoaded_cfg {i : Instr} {s t : State} (h : exec i s = .next t) :
    t.numLoaded = s.numLoaded ∧ t.cfg = s.cfg := by
  rcases exec_cases i s with
    ⟨a, b, d, -, he⟩ | ⟨a, b, d, -, he⟩ | ⟨a, b, f, -, ⟨-, he⟩ | ⟨-, he⟩⟩ | ⟨a, b, f, -, ⟨-, he⟩ | ⟨-, he⟩⟩ |
    ⟨a, b, f, -, he⟩ | ⟨a, b, -, he⟩ | ⟨-, he⟩ | ⟨-, he⟩ <;>
  · obtain rfl := Host.Outcome.next.inj (he.symm.trans h)
    exact ⟨rfl, rfl⟩

/-- No step does. -/
theorem step_numLoaded_cfg {s t : State} (h : step s = .next t) : t.numLoaded = s.numLoaded ∧ t.cfg = s.cfg := by
  obtain ⟨-, ⟨-, rfl⟩ | ⟨-, he⟩⟩ := step_cases h
  · exact ⟨rfl, rfl⟩
  · exact exec_numLoaded_cfg he

/-- No run does. -/
theorem State.runFor_numLoaded_cfg (n : Nat) (s : State) :
    (s.runFor n).numLoaded = s.numLoaded ∧ (s.runFor n).cfg = s.cfg :=
  State.runFor_induction (P := fun t => t.numLoaded = s.numLoaded ∧ t.cfg = s.cfg)
    (fun _ _ ⟨hn, hc⟩ h =>
      have ⟨hn', hc'⟩ := step_numLoaded_cfg h
      ⟨hn'.trans hn, hc'.trans hc⟩) n s ⟨rfl, rfl⟩

/-- The state with another loaded-word count. -/
def State.withNumLoaded (s : State) (k : Nat) : State := { s with numLoaded := k }

/-- No instruction reads the loaded-word count (R31). -/
theorem exec_withNumLoaded {i : Instr} {s t : State} (k : Nat) (h : exec i s = .next t) :
    exec i (s.withNumLoaded k) = .next (t.withNumLoaded k) := by
  cases i with
  | lw a b f =>
    by_cases hm : s.inMemory (s.effectiveAddress a f)
    · obtain rfl := Host.Outcome.next.inj ((exec_lw_inMemory hm).symm.trans h)
      exact exec_lw_inMemory (s := s.withNumLoaded k) hm
    · obtain rfl := Host.Outcome.next.inj ((exec_lw_outside hm).symm.trans h)
      exact exec_lw_outside (s := s.withNumLoaded k) hm
  | sw a b f =>
    by_cases hm : s.inMemory (s.effectiveAddress a f)
    · obtain rfl := Host.Outcome.next.inj ((exec_sw_inMemory hm).symm.trans h)
      exact exec_sw_inMemory (s := s.withNumLoaded k) hm
    · obtain rfl := Host.Outcome.next.inj ((exec_sw_outside hm).symm.trans h)
      exact exec_sw_outside (s := s.withNumLoaded k) hm
  | add | nor | beq | jalr | halt | noop =>
    obtain rfl := Host.Outcome.next.inj h
    rfl

/-- Settles O22: the launch sets the count, every step keeps it, and no instruction reads it. -/
theorem loadedCountIsConstant : Obligations.LoadedCountIsConstant :=
  ⟨fun _ _ _ h => launch_ok h ▸ rfl, State.runFor_numLoaded_cfg, fun _ _ _ k h => exec_withNumLoaded k h⟩

/-! ### The registers -/

theorem State.readReg_writeReg_of_ne {s : State} {i j : Reg} {v : Word} (h : i ≠ j) :
    (s.writeReg i v).readReg j = s.readReg j := by
  rw [State.readReg_writeReg, if_neg h]

/-- An instruction writes no register but its destination (R23). -/
theorem exec_readReg_of_ne_destination {i : Instr} {s t : State} {r : Reg} (h : exec i s = .next t)
    (hd : destinationOf i ≠ some r) : t.readReg r = s.readReg r := by
  cases i with
  | add | nor | jalr =>
    obtain rfl := Host.Outcome.next.inj h
    exact State.readReg_writeReg_of_ne (fun he => hd (congrArg some he))
  | lw a b f =>
    by_cases hm : s.inMemory (s.effectiveAddress a f)
    · obtain rfl := Host.Outcome.next.inj ((exec_lw_inMemory hm).symm.trans h)
      exact State.readReg_writeReg_of_ne (fun he => hd (congrArg some he))
    · obtain rfl := Host.Outcome.next.inj ((exec_lw_outside hm).symm.trans h)
      rfl
  | sw a b f =>
    by_cases hm : s.inMemory (s.effectiveAddress a f)
    · obtain rfl := Host.Outcome.next.inj ((exec_sw_inMemory hm).symm.trans h)
      rfl
    · obtain rfl := Host.Outcome.next.inj ((exec_sw_outside hm).symm.trans h)
      rfl
  | beq | halt | noop =>
    obtain rfl := Host.Outcome.next.inj h
    rfl

/-- Settles O32: a register that a step changes is the destination of the instruction fetched. -/
theorem registersChangeOnlyThroughTheirSelector : Obligations.RegistersChangeOnlyThroughTheirSelector := by
  refine ⟨fun s t r _ h hne => ?_, fun s r q v => by simp [State.readReg_writeReg, eq_comm]⟩
  obtain ⟨-, ⟨-, rfl⟩ | ⟨hf, he⟩⟩ := step_cases h
  · exact absurd rfl hne
  · refine ⟨hf, ?_⟩
    rw [← slot_eq_toNat hf.1]
    by_contra hd
    exact hne (exec_readReg_of_ne_destination he hd)

/-- Settles O38: State.reset has the values of R201. -/
theorem resetZeroesTheMachine : Obligations.ResetZeroesTheMachine := by
  refine ⟨fun r => ?_, rfl, rfl, rfl, rfl, rfl, rfl⟩
  simp [State.readReg, State.reset]

end Sys2Proof.Machine
end

section
/-! SUPPORT. The label table as a finite map (10_state.md R35): its names, and what pass 1 makes of them. -/

namespace Sys2Proof.Machine

/-- The names a table has an entry for. -/
abbrev LabelTable.names (table : LabelTable) : List String := table.map Prod.fst

/-- A lookup fails exactly at the names the table lacks. -/
theorem tableFind_eq_none_iff {table : LabelTable} {name : String} :
    tableFind table name = none ↔ name ∉ LabelTable.names table := by
  induction table with
  | nil => simp [tableFind]
  | cons e table ih =>
    obtain ⟨n, v⟩ := e
    rw [tableFind_cons]
    by_cases h : n = name
    · simp [h]
    · simp [h, ih, Ne.symm h]

/-- Where the names differ, a lookup gives each entry. -/
theorem tableFind_of_mem {table : LabelTable} {name : String} {v : Word} (hn : (LabelTable.names table).Nodup)
    (h : (name, v) ∈ table) : tableFind table name = some v := by
  induction table with
  | nil => cases h
  | cons e table ih =>
    obtain ⟨n, u⟩ := e
    obtain ⟨hhead, htail⟩ := List.nodup_cons.mp hn
    rw [tableFind_cons]
    rcases List.mem_cons.mp h with h | h
    · obtain ⟨rfl, rfl⟩ := Prod.mk.inj h
      exact if_pos rfl
    · have hne : n ≠ name := fun he => hhead (List.mem_map.mpr ⟨(name, v), h, he.symm⟩)
      rw [if_neg hne, ih htail h]

theorem resolve_of_mem {table : LabelTable} {name : String} {v : Word} (hn : (LabelTable.names table).Nodup)
    (h : (name, v) ∈ table) : resolve table name = .ok v := by
  rw [resolve, tableFind_of_mem hn h]

/-- A line adds its own label to the names, if it has one, and nothing else (R145). -/
theorem mem_names_collectLabel {i : Nat} {table table' : LabelTable} {line : Line} {name : String}
    (h : collectLabel i table line = .ok table') :
    name ∈ LabelTable.names table' ↔ name ∈ LabelTable.names table ∨ (name ≠ "" ∧ line.label = name) := by
  rcases collectLabel_ok h with ⟨hl, rfl⟩ | ⟨hl, v, -, -, -, rfl⟩
  · have hno : ¬ (name ≠ "" ∧ line.label = name) := fun ⟨hne, he⟩ => hne (he ▸ hl)
    simp [hno]
  · have hne : line.label = name → name ≠ "" := fun he => he ▸ hl
    rw [LabelTable.names, List.map_cons, List.mem_cons, or_comm, eq_comm (a := name), and_iff_right_of_imp hne]

/-- A line keeps the names different: an insertion refuses a name the table has (R143). -/
theorem nodup_names_collectLabel {i : Nat} {table table' : LabelTable} {line : Line}
    (h : collectLabel i table line = .ok table') (hn : (LabelTable.names table).Nodup) :
    (LabelTable.names table').Nodup := by
  rcases collectLabel_ok h with ⟨-, rfl⟩ | ⟨-, v, -, -, hnew, rfl⟩
  · exact hn
  · exact List.nodup_cons.mpr ⟨tableFind_eq_none_iff.mp hnew, hn⟩

theorem nodup_names_pass1 {i : Nat} {table table' : LabelTable} {lines : List Line}
    (h : pass1 i table lines = .ok table') (hn : (LabelTable.names table).Nodup) :
    (LabelTable.names table').Nodup := by
  induction lines generalizing i table with
  | nil => cases h; exact hn
  | cons line lines ih =>
    obtain ⟨mid, hmid, hrest⟩ := pass1_cons_ok h
    exact ih hrest (nodup_names_collectLabel hmid hn)

/-- Pass 1 adds the labels of its lines and nothing else. -/
theorem mem_names_pass1 {i : Nat} {table table' : LabelTable} {lines : List Line} {name : String}
    (h : pass1 i table lines = .ok table') :
    name ∈ LabelTable.names table' ↔
      name ∈ LabelTable.names table ∨ (name ≠ "" ∧ ∃ line ∈ lines, line.label = name) := by
  induction lines generalizing i table with
  | nil => cases h; simp
  | cons line lines ih =>
    obtain ⟨mid, hmid, hrest⟩ := pass1_cons_ok h
    rw [ih hrest, mem_names_collectLabel hmid, List.exists_mem_cons_iff, and_or_left, or_assoc]

/-- Settles O54: pass 1 starts from the empty table, keeps the names different and adds the labels of the lines. -/
theorem labelTableIsAMapOfTheLabels : Obligations.LabelTableIsAMapOfTheLabels := by
  intro lines table h
  have hn : (LabelTable.names table).Nodup := nodup_names_pass1 h List.nodup_nil
  refine ⟨hn, fun name => ?_, fun name v hv => ⟨resolve_of_mem hn hv, BitVec.le_toInt v, ?_⟩⟩
  · simpa using mem_names_pass1 (name := name) h
  · exact Int.le_sub_one_of_lt (BitVec.toInt_lt (x := v))

end Sys2Proof.Machine
end

section
/-! SUPPORT. Memory (20_memory.md): the two primitives, the wrapped address sum, and what an instruction, a step and a run
do to the listed words. -/

namespace Sys2Proof.Machine

/-! ### The primitives -/

/-- Settles O33: inside memory the slot of an address is its unsigned value, and a store is read back there alone; outside,
the bound fails. -/
theorem memoryPrimitivesFollowTheirRules : Obligations.MemoryPrimitivesFollowTheirRules := by
  intro s addr v
  refine ⟨fun hin => ?_, fun hout => ?_⟩
  · rw [State.memRead_ok hin, State.memWrite_ok hin, slot_eq_toNat hin.1]
    refine ⟨rfl, _, rfl, State.wordAt_storeAt_self s _ v, fun a ha => ?_, rfl⟩
    rw [State.wordAt_storeAt, if_neg ha.symm]
  · have hnot : ¬ s.inMemory addr := by omega
    exact ⟨State.memRead_error hnot, State.memWrite_error hnot⟩

/-! ### The wrapped sum -/

/-- The signed value of a wrapped sum: the unbounded sum, brought back by 2^32 where it leaves the signed range. -/
theorem toInt_add_cases (x y : Word) :
    (x + y).toInt = x.toInt + y.toInt ∨
    (2 ^ 31 ≤ x.toInt + y.toInt ∧ (x + y).toInt = x.toInt + y.toInt - 2 ^ 32) ∨
    (x.toInt + y.toInt < -2 ^ 31 ∧ (x + y).toInt = x.toInt + y.toInt + 2 ^ 32) := by
  have hx := BitVec.toInt_lt (x := x)
  have hx' := BitVec.le_toInt x
  have hy := BitVec.toInt_lt (x := y)
  have hy' := BitVec.le_toInt y
  rw [BitVec.toInt_add, Int.bmod_def]
  split <;> omega

/-- The offset of a 16-bit field lies in -32768 to 32767 (R68). -/
theorem sext32_toInt_bounds (f : Field16) : -32768 ≤ (sext32 f).toInt ∧ (sext32 f).toInt < 32768 := by
  rw [sext32, BitVec.toInt_signExtend_of_le (by decide)]
  exact ⟨BitVec.le_toInt f, BitVec.toInt_lt⟩

/-- Settles O34: a sum that wraps upwards is negative, and one that wraps downwards lies in the last 32768 signed numbers,
which the limit of MEM_WORDS keeps out of memory. -/
theorem wrappedAddressAgreesWithUnboundedSum : Obligations.WrappedAddressAgreesWithUnboundedSum := by
  intro s a f hcfg
  have hlimit : s.cfg.memWords ≤ 2 ^ 31 - 32768 := of_decide_eq_true hcfg
  have hreg := BitVec.toInt_lt (x := s.readReg a)
  have hreg' := BitVec.le_toInt (s.readReg a)
  have hoff := sext32_toInt_bounds f
  refine ⟨rfl, ?_⟩
  rw [State.inMemory, State.effectiveAddress]
  rcases toInt_add_cases (s.readReg a) (sext32 f) with h | ⟨hsum, h⟩ | ⟨hsum, h⟩ <;> rw [h] <;> omega

/-! ### A store and the fetch that follows -/

/-- From a `pc` that is not negative the loaded-word count alone decides whether the word there is fetched (R91). -/
theorem State.fetch_of_nonneg {s : State} {w : Word} (h : 0 ≤ s.pc.toInt) (hw : s.wordAt (slot s.pc) = w) :
    s.fetch = if s.pc.toInt < s.numLoaded then .ok w else .error (.invalidAddress .fetch s.pc) := by
  by_cases hlt : s.pc.toInt < s.numLoaded
  · rw [if_pos hlt, State.fetch_ok ⟨h, hlt⟩, hw]
  · rw [if_neg hlt, State.fetch_error fun hf => hlt hf.2]

/-- Settles O35: the fetch reads the one memory the store has written. -/
theorem storeIsSeenByTheNextFetch : Obligations.StoreIsSeenByTheNextFetch := fun s _ _ _ h =>
  ⟨_, exec_sw_inMemory h, State.fetch_of_nonneg h.1 (State.wordAt_storeAt_self s _ _)⟩

/-! ### What an instruction does to memory -/

/-- Everything an instruction can do to memory: nothing, or, if it is an `sw` inside memory, the write of one word. -/
theorem exec_mem_cases {i : Instr} {s t : State} (h : exec i s = .next t) :
    t.mem = s.mem ∨
    ∃ a b f, i = .sw a b f ∧ s.inMemory (s.effectiveAddress a f) ∧
      t.mem = s.mem.write (slot (s.effectiveAddress a f)) (s.readReg b) := by
  cases i with
  | lw a b f =>
    by_cases hm : s.inMemory (s.effectiveAddress a f)
    · obtain rfl := Host.Outcome.next.inj ((exec_lw_inMemory hm).symm.trans h)
      exact .inl rfl
    · obtain rfl := Host.Outcome.next.inj ((exec_lw_outside hm).symm.trans h)
      exact .inl rfl
  | sw a b f =>
    by_cases hm : s.inMemory (s.effectiveAddress a f)
    · obtain rfl := Host.Outcome.next.inj ((exec_sw_inMemory hm).symm.trans h)
      exact .inr ⟨a, b, f, rfl, hm, rfl⟩
    · obtain rfl := Host.Outcome.next.inj ((exec_sw_outside hm).symm.trans h)
      exact .inl rfl
  | add | nor | beq | jalr | halt | noop =>
    obtain rfl := Host.Outcome.next.inj h
    exact .inl rfl

/-- Only `sw` writes memory (R42). -/
theorem exec_mem_of_ne_sw {i : Instr} {s t : State} (hi : ∀ a b f, i ≠ .sw a b f) (h : exec i s = .next t) :
    t.mem = s.mem := by
  obtain hmem | ⟨a, b, f, rfl, -⟩ := exec_mem_cases h
  · exact hmem
  · exact absurd rfl (hi a b f)

/-- The state with another memory. -/
def State.withMem (s : State) (m : Memory) : State := { s with mem := m }

/-- An instruction that makes no data access reads no memory (R42). -/
theorem exec_withMem {i : Instr} {s t : State} (m : Memory) (hi : noDataAccess i = true) (h : exec i s = .next t) :
    exec i (s.withMem m) = .next (t.withMem m) := by
  cases i with
  | lw | sw => cases hi
  | add | nor | beq | jalr | halt | noop =>
    obtain rfl := Host.Outcome.next.inj h
    rfl

/-- Settles O37: only `sw` writes memory, and an instruction without a data access does not read it. -/
theorem onlyLoadAndStoreReachMemory : Obligations.OnlyLoadAndStoreReachMemory := by
  refine ⟨fun i s t m hi h => ⟨exec_mem_of_ne_sw ?_ h, exec_withMem m hi h⟩,
    fun a b f s t h => exec_mem_of_ne_sw (by nofun) h⟩
  rintro a b f rfl
  cases hi

/-! ### Words that nothing has determined -/

/-- What is unlisted after a write was unlisted before it. -/
theorem Memory.find_eq_none_of_write {m : Memory} {a b : Nat} {v : Word} (h : (m.write a v).find b = none) :
    m.find b = none := by
  rw [Memory.find_write] at h
  split at h
  · cases h
  · exact h

/-- A step takes no word off the list. -/
theorem step_unlisted {s t : State} {a : Nat} (h : step s = .next t) (ha : t.mem.find a = none) :
    s.mem.find a = none := by
  obtain ⟨-, ⟨-, rfl⟩ | ⟨-, he⟩⟩ := step_cases h
  · exact ha
  · obtain hmem | ⟨_, _, _, -, -, hmem⟩ := exec_mem_cases he <;> rw [hmem] at ha
    · exact ha
    · exact Memory.find_eq_none_of_write ha

/-- No run does. -/
theorem State.runFor_unlisted {a : Nat} (n : Nat) (s : State) :
    (s.runFor n).mem.find a = none → s.mem.find a = none :=
  State.runFor_induction (P := fun t => t.mem.find a = none → s.mem.find a = none)
    (fun _ _ hs h ha => hs (step_unlisted h ha)) n s id

/-- Settles O36: an unlisted word was unlisted all along, and its free value depends on the run's parameters alone, which
no step changes. -/
theorem unwrittenWordKeepsItsValue : Obligations.UnwrittenWordKeepsItsValue := by
  intro n s a h
  have hs := State.runFor_unlisted n s h
  refine ⟨hs, ?_⟩
  rw [State.wordAt_of_unlisted h, State.wordAt_of_unlisted hs, (State.runFor_numLoaded_cfg n s).2]

end Sys2Proof.Machine
end

section
/-! SUPPORT. The encoding (30_encoding.md R60 to R78): the fields as slices, the slices as masks, the fields of an encoded
word, and the word an instruction encodes back to. -/

namespace Sys2Proof

/-! ### The fields of a word -/

theorem slice_lt (w : Word) (hi lo : Nat) : slice w hi lo < 2 ^ (hi - lo + 1) := Nat.mod_lt _ (Nat.two_pow_pos _)

/-- The numbering of R69 leaves no opcode number out (R70). -/
@[simp] theorem Opcode.number_ofNumber (n : Fin 8) : (Opcode.ofNumber n).number = n.val := by
  revert n
  decide

@[simp] theorem opcodeOf_number (w : Word) : (opcodeOf w).number = slice w 24 22 := by
  rw [opcodeOf, Opcode.number_ofNumber]
  exact Nat.mod_eq_of_lt (slice_lt w 24 22)

@[simp] theorem regAOf_val (w : Word) : (regAOf w).val = slice w 21 19 := Nat.mod_eq_of_lt (slice_lt w 21 19)

@[simp] theorem regBOf_val (w : Word) : (regBOf w).val = slice w 18 16 := Nat.mod_eq_of_lt (slice_lt w 18 16)

@[simp] theorem destOf_val (w : Word) : (destOf w).val = slice w 2 0 := Nat.mod_eq_of_lt (slice_lt w 2 0)

@[simp] theorem field16Of_toNat (w : Word) : (field16Of w).toNat = slice w 15 0 :=
  Nat.mod_eq_of_lt (slice_lt w 15 0)

/-- The opcode is decided by its number. -/
theorem opcodeOf_eq_iff {w : Word} {op : Opcode} : opcodeOf w = op ↔ slice w 24 22 = op.number := by
  refine ⟨fun h => by rw [← h, opcodeOf_number], fun h => ?_⟩
  rw [opcodeOf, h, Opcode.ofNumber_number]

/-- The offset has the signed value of the field (R68). -/
@[simp] theorem sext32_toInt (f : Field16) : (sext32 f).toInt = f.toInt := BitVec.toInt_signExtend_of_le (by decide)

/-- The signed value of a field, reduced as `Enc` reduces it, is the unsigned one (R77). -/
@[simp] theorem Field16.toInt_emod (f : Field16) : (f.toInt % 65536).toNat = f.toNat := by
  have := f.isLt
  rw [BitVec.toInt_eq_toNat_cond]
  omega

/-! ### Slices, bit by bit -/

theorem testBit_slice (w : Word) (hi lo i : Nat) :
    (slice w hi lo).testBit i = (decide (i < hi - lo + 1) && w.toNat.testBit (i + lo)) := by
  rw [slice, Nat.testBit_mod_two_pow, Nat.testBit_div_two_pow]

/-- Words that agree on a range of bits agree on every range within it. -/
theorem slice_congr {w v : Word} {hi lo : Nat} (h : w.extractLsb hi lo = v.extractLsb hi lo) (hi' lo' : Nat)
    (hhi : hi' ≤ hi := by decide) (hle : lo' ≤ hi' := by decide) (hlo : lo ≤ lo' := by decide) :
    slice w hi' lo' = slice v hi' lo' := by
  have hslice : slice w hi lo = slice v hi lo := by rw [slice_eq_extractLsb, slice_eq_extractLsb, h]
  refine Nat.eq_of_testBit_eq fun i => ?_
  by_cases hin : i < hi' - lo' + 1
  · have hbit := congrArg (Nat.testBit · (i + (lo' - lo))) hslice
    have hin' : i + (lo' - lo) < hi - lo + 1 := by omega
    have hpos : i + (lo' - lo) + lo = i + lo' := by omega
    simpa only [testBit_slice, hin, hin', hpos, decide_true, Bool.true_and] using hbit
  · simp [testBit_slice, hin]

/-- Masking a word with a run of ones keeps the slice there, in its place. -/
theorem toNat_and_mask (w : Word) {mask : Word} (hi lo : Nat)
    (h : mask.toNat = (2 ^ (hi - lo + 1) - 1) * 2 ^ lo) : (w &&& mask).toNat = slice w hi lo * 2 ^ lo := by
  refine Nat.eq_of_testBit_eq fun i => ?_
  rw [BitVec.toNat_and, h, Nat.testBit_and, Nat.testBit_mul_two_pow, Nat.testBit_two_pow_sub_one,
    Nat.testBit_mul_two_pow, testBit_slice]
  by_cases hlo : lo ≤ i
  · rw [Nat.sub_add_cancel hlo]
    ac_rfl
  · simp [hlo]

/-! ### The fields of an encoded word -/

section
variable (op : Opcode) (a b : Reg) (f : Int)

@[simp] theorem opcodeOf_enc : opcodeOf (enc op a b f) = op := opcodeOf_eq_iff.mpr (slice_enc_opcode ..)

@[simp] theorem regAOf_enc : regAOf (enc op a b f) = a := Fin.ext (by rw [regAOf_val, slice_enc_regA])

@[simp] theorem regBOf_enc : regBOf (enc op a b f) = b := Fin.ext (by rw [regBOf_val, slice_enc_regB])

theorem field16Of_enc : field16Of (enc op a b f) = BitVec.ofInt 16 f :=
  BitVec.eq_of_toNat_eq (by rw [field16Of_toNat, slice_enc_field16, BitVec.toNat_ofInt]; rfl)

@[simp] theorem field16Of_enc_toInt (g : Field16) : field16Of (enc op a b g.toInt) = g := by
  rw [field16Of_enc, BitVec.ofInt_toInt]

theorem destOf_enc_val : ((destOf (enc op a b f)).val : Int) = f % 8 := by
  rw [destOf_val, slice, enc_toNat]
  omega

@[simp] theorem destOf_enc_reg (d : Reg) : destOf (enc op a b d.val) = d :=
  Fin.ext (by have := destOf_enc_val op a b d.val; omega)

@[simp] theorem decode_enc : decode (enc op a b f) = decodeAs op (enc op a b f) := decode_of_opcode (opcodeOf_enc ..)

end

/-- Every instruction encodes to a word of the layout, under its own opcode (R77). -/
theorem encode_eq_enc (i : Instr) : ∃ a b f, encode i = enc i.opcode a b f := by
  cases i <;> exact ⟨_, _, _, rfl⟩

/-! ### Encoding what a word decodes to -/

/-- Encoding the opcode and the registers of a word keeps its bits 24:16. -/
theorem toNat_enc_upperFields {w : Word} {op : Opcode} (hop : opcodeOf w = op) (f : Int) :
    (enc op (regAOf w) (regBOf w) f).toNat = slice w 24 16 * 2 ^ 16 + (f % 65536).toNat := by
  rw [enc_toNat, ← opcodeOf_eq_iff.mp hop, regAOf_val, regBOf_val]
  simp only [slice]
  omega

/-- A word is what it encodes back to, its bits 31:25 and the bits its format ignores: the three share no bit. -/
theorem toNat_encode_decode_add (w : Word) :
    (encode (decode w)).toNat + (w &&& 0xFE000000#32).toNat + (w &&& ignoredBits (opcodeOf w)).toNat = w.toNat := by
  have hw := w.isLt
  rw [toNat_and_mask w 31 25 rfl]
  cases hop : opcodeOf w with
  | add | nor =>
    rw [ignoredBits, toNat_and_mask w 15 3 rfl, decode_of_opcode hop, decodeAs, encode, toNat_enc_upperFields hop,
      destOf_val]
    simp only [slice]
    omega
  | lw | sw | beq =>
    rw [ignoredBits, BitVec.and_zero, decode_of_opcode hop, decodeAs, encode, toNat_enc_upperFields hop,
      Field16.toInt_emod, field16Of_toNat]
    simp only [slice, BitVec.toNat_zero]
    omega
  | jalr =>
    rw [ignoredBits, toNat_and_mask w 15 0 rfl, decode_of_opcode hop, decodeAs, encode, toNat_enc_upperFields hop]
    simp only [slice]
    omega
  | halt | noop =>
    rw [ignoredBits, toNat_and_mask w 21 0 rfl, decode_of_opcode hop, decodeAs, encode, enc_toNat,
      ← opcodeOf_eq_iff.mp hop]
    simp only [slice]
    omega

/-- Canonical, as the two groups of ignored bits (R73). -/
theorem canonical_iff (w : Word) :
    canonical w = true ↔ (w &&& 0xFE000000#32).toNat = 0 ∧ (w &&& ignoredBits (opcodeOf w)).toNat = 0 := by
  rw [canonical, beq_iff_eq, BitVec.and_or_distrib_left, BitVec.or_eq_zero_iff, ← BitVec.toNat_inj, ← BitVec.toNat_inj]
  rfl

/-! ### The opcode map -/

/-- Under the mask of R69 stands the opcode number. -/
theorem and_opcodeMask_eq_iff (w : Word) (op : Opcode) :
    w &&& 0x01C00000#32 = BitVec.ofNat 32 (op.number * 2 ^ 22) ↔ opcodeOf w = op := by
  have := op.number_lt
  rw [opcodeOf_eq_iff, ← BitVec.toNat_inj, toNat_and_mask w 24 22 rfl, BitVec.toNat_ofNat]
  omega

/-- A word is an instruction of an opcode, with the word's own fields, exactly when it has the opcode. -/
theorem decode_eq_decodeAs_iff (w : Word) (op : Opcode) : decode w = decodeAs op w ↔ opcodeOf w = op := by
  refine ⟨fun h => ?_, decode_of_opcode⟩
  rw [← decode_opcode w, h]
  cases op <;> rfl

/-- One row of the opcode map (R69). -/
theorem and_opcodeMask_eq_iff_decode (w : Word) (op : Opcode) :
    w &&& 0x01C00000#32 = BitVec.ofNat 32 (op.number * 2 ^ 22) ↔ decode w = decodeAs op w := by
  rw [and_opcodeMask_eq_iff, decode_eq_decodeAs_iff]

/-! ### Words that agree on the bits of a format -/

section
variable {w v : Word}

theorem opcodeOf_congr (h : slice w 24 22 = slice v 24 22) : opcodeOf w = opcodeOf v := by rw [opcodeOf, h, opcodeOf]

theorem regAOf_congr (h : slice w 21 19 = slice v 21 19) : regAOf w = regAOf v := by rw [regAOf, h, regAOf]

theorem regBOf_congr (h : slice w 18 16 = slice v 18 16) : regBOf w = regBOf v := by rw [regBOf, h, regBOf]

theorem field16Of_congr (h : slice w 15 0 = slice v 15 0) : field16Of w = field16Of v := by
  rw [field16Of, h, field16Of]

theorem destOf_congr (h : slice w 2 0 = slice v 2 0) : destOf w = destOf v := by rw [destOf, h, destOf]

/-- Words that agree on bits 24:16 have the same opcode and registers. -/
theorem upperFields_congr (h : w.extractLsb 24 16 = v.extractLsb 24 16) :
    opcodeOf w = opcodeOf v ∧ regAOf w = regAOf v ∧ regBOf w = regBOf v :=
  ⟨opcodeOf_congr (slice_congr h 24 22), regAOf_congr (slice_congr h 21 19), regBOf_congr (slice_congr h 18 16)⟩

/-- Words of one opcode are the same instruction, once the fields of its format agree. -/
theorem decode_congr {op : Opcode} (hop : opcodeOf w = op) (hcode : opcodeOf w = opcodeOf v)
    (h : decodeAs op w = decodeAs op v) : decode w = decode v := by
  rw [decode_of_opcode hop, decode_of_opcode (hcode.symm.trans hop), h]

/-- No format uses a bit of 31:25 (R71). -/
theorem decode_congr_of_low25 (h : w.extractLsb 24 0 = v.extractLsb 24 0) : decode w = decode v := by
  have hcode := opcodeOf_congr (slice_congr h 24 22)
  have ha := regAOf_congr (slice_congr h 21 19)
  have hb := regBOf_congr (slice_congr h 18 16)
  have hf := field16Of_congr (slice_congr h 15 0)
  have hd := destOf_congr (slice_congr h 2 0)
  refine decode_congr rfl hcode ?_
  cases opcodeOf w <;> simp only [decodeAs, ha, hb, hf, hd]

/-- The R-type uses bits 24:16 and 2:0 (R72). -/
theorem decode_congr_of_rType (hop : opcodeOf w = .add ∨ opcodeOf w = .nor)
    (h : w.extractLsb 24 16 = v.extractLsb 24 16) (hlow : w.extractLsb 2 0 = v.extractLsb 2 0) :
    decode w = decode v := by
  obtain ⟨hcode, ha, hb⟩ := upperFields_congr h
  have hd := destOf_congr (slice_congr hlow 2 0)
  rcases hop with hop | hop <;> exact decode_congr hop hcode (by rw [decodeAs, decodeAs, ha, hb, hd])

/-- The J-type uses bits 24:16 (R72). -/
theorem decode_congr_of_jType (hop : opcodeOf w = .jalr) (h : w.extractLsb 24 16 = v.extractLsb 24 16) :
    decode w = decode v := by
  obtain ⟨hcode, ha, hb⟩ := upperFields_congr h
  exact decode_congr hop hcode (by rw [decodeAs, decodeAs, ha, hb])

/-- The O-type uses bits 24:22 (R72). -/
theorem decode_congr_of_oType (hop : opcodeOf w = .halt ∨ opcodeOf w = .noop)
    (h : w.extractLsb 24 22 = v.extractLsb 24 22) : decode w = decode v := by
  have hcode := opcodeOf_congr (slice_congr h 24 22)
  rcases hop with hop | hop <;> exact decode_congr hop hcode rfl

end

end Sys2Proof
end

section
/-! SUPPORT. The statements about the encoding (30_encoding.md R62 to R78). -/

namespace Sys2Proof.Machine

/-- Settles O5: the opcode of the encoded word selects the format, and each field of the format is read back. -/
theorem decodeOfEncodeIsTheInstruction : Obligations.DecodeOfEncodeIsTheInstruction := by
  intro i _
  cases i with
  | add | nor => rw [encode, decode_enc, decodeAs, regAOf_enc, regBOf_enc, destOf_enc_reg]
  | lw | sw | beq => rw [encode, decode_enc, decodeAs, regAOf_enc, regBOf_enc, field16Of_enc_toInt]
  | jalr => rw [encode, decode_enc, decodeAs, regAOf_enc, regBOf_enc]
  | halt | noop => rw [encode, decode_enc, decodeAs]

/-- Settles O6: a word exceeds what it encodes back to by exactly its ignored bits. -/
theorem encodeOfDecodeIsTheCanonicalWord : Obligations.EncodeOfDecodeIsTheCanonicalWord := by
  intro w
  have hsum := toNat_encode_decode_add w
  rw [canonical_iff, ← BitVec.toNat_inj]
  omega

/-- Settles O1: each field keeps its whole slice, and a slice is the extracted bits. -/
theorem decoderFieldsAreTheBitSlices : Obligations.DecoderFieldsAreTheBitSlices := by
  intro w
  simp only [← slice_eq_extractLsb]
  exact ⟨opcodeOf_number w, regAOf_val w, regBOf_val w, field16Of_toNat w, destOf_val w⟩

/-- Settles O2: sign extension keeps the signed value of the field, and both address forms add it as it is. -/
theorem offsetIsTheSignedField : Obligations.OffsetIsTheSignedField := by
  refine ⟨fun w => ⟨?_, (sext32_toInt_bounds _).1, Int.lt_add_one_iff.mp (sext32_toInt_bounds _).2⟩,
    fun s a w => ⟨rfl, rfl⟩, fun w => ⟨decode_of_opcode, decode_of_opcode⟩⟩
  rw [decoderOutputs, sext32_toInt, BitVec.toInt_eq_toNat_cond]
  split <;> split <;> omega

/-- A register field cut from the word directly is the slice. -/
theorem regField_val (w : Word) (lo : Nat) : (regField w lo).val = slice w (lo + 2) lo := by
  rw [slice, Nat.add_sub_cancel_left, ← Nat.shiftRight_eq_div_pow]
  exact BitVec.extractLsb'_toNat lo 3 w

theorem regAOf_eq_regField (w : Word) : regAOf w = regField w 19 := Fin.ext (by rw [regAOf_val, regField_val])

theorem regBOf_eq_regField (w : Word) : regBOf w = regField w 16 := Fin.ext (by rw [regBOf_val, regField_val])

theorem destOf_eq_regField (w : Word) : destOf w = regField w 0 := Fin.ext (by rw [destOf_val, regField_val])

theorem field16Of_eq_extractLsb' (w : Word) : field16Of w = w.extractLsb' 0 16 :=
  BitVec.eq_of_toNat_eq (by rw [field16Of_toNat, slice_eq_extractLsb]; rfl)

/-- Settles O3: the eight rows are one law of the opcode, with the fields cut from the word. -/
theorem opcodeMapMaskAndMatch : Obligations.OpcodeMapMaskAndMatch := by
  refine ⟨by decide, fun w => ?_⟩
  have hrow := and_opcodeMask_eq_iff_decode w
  simp only [← regAOf_eq_regField, ← regBOf_eq_regField, ← destOf_eq_regField, ← field16Of_eq_extractLsb']
  exact ⟨hrow .add, hrow .nor, hrow .lw, hrow .sw, hrow .beq, hrow .jalr, hrow .halt, hrow .noop⟩

/-- Settles O4: words that agree on the fields of a format decode alike, and the layout of `Enc` ends at bit 24. -/
theorem ignoredBitsChangeNothing : Obligations.IgnoredBitsChangeNothing := by
  refine ⟨fun w v => ⟨decode_congr_of_low25, decode_congr_of_rType, decode_congr_of_jType, decode_congr_of_oType⟩,
    fun i => BitVec.eq_of_toNat_eq ?_, by decide, by decide, by decide⟩
  obtain ⟨a, b, f, hi⟩ := encode_eq_enc i
  rw [hi, ← slice_eq_extractLsb, slice_enc_unused]
  rfl

/-- Settles O7: the fields of an encoded word, and a 16-bit field holds every offset in its range. -/
theorem agreementOfEncAndDecoder : Obligations.AgreementOfEncAndDecoder := by
  intro op a b f
  refine ⟨opcodeOf_enc .., regAOf_enc .., regBOf_enc .., ?_, destOf_enc_val .., fun ⟨hlo, hhi⟩ => ?_⟩
  · rw [decoderOutputs, field16Of_toNat, slice_enc_field16]
    omega
  · rw [decoderOutputs, sext32_toInt, field16Of_enc]
    exact BitVec.toInt_ofInt_eq_self (by decide) hlo (by omega)

end Sys2Proof.Machine
end

section
/-! SUPPORT. The execution cycle (40_execution_cycle.md R90 to R98): a step exists while the machine runs, it completes or
faults, it is the spec's listing, and what it reads of unloaded memory. -/

namespace Sys2Proof.Machine

section
variable {s t : State}

/-! ### Fetch and dispatch -/

/-- Settles O9: the fetch reads the word at `pc`, and a running machine executes what it decodes to. -/
theorem stepRunsTheDecodedInstruction : Obligations.StepRunsTheDecodedInstruction := by
  intro s i hr hpos hlt hd _
  rw [step_of_fetchable hr ⟨hpos, hlt⟩, slot_eq_toNat hpos, hd]

/-- A fetch reads a word of the image. -/
theorem State.slot_pc_lt_numLoaded (h : s.fetchable) : slot s.pc < s.numLoaded := by
  have hlt := h.2
  rw [toInt_eq_slot h.1] at hlt
  exact_mod_cast hlt

/-- The address that follows the last word of the image is the loaded-word count. -/
theorem State.nextPc_of_toInt {n : Nat} (h : s.pc.toInt + 1 = n) : s.nextPc = BitVec.ofNat 32 n := by
  rw [← BitVec.ofInt_natCast, ← h, BitVec.ofInt_add, BitVec.ofInt_toInt]
  rfl

/-- Settles O11: the fetch bound decides between the word and the fetch fault, and a `halt` is not followed by a fetch. -/
theorem fetchOutsideTheImageFaults : Obligations.FetchOutsideTheImageFaults := by
  intro s hr
  refine ⟨fun hf => ?_, fun hout => ?_, fun hpos hlast hd => ?_⟩
  · rw [State.fetch_ok hf, slot_eq_toNat hf.1]
  · exact step_of_unfetchable hr (by omega)
  · have hstep := stepRunsTheDecodedInstruction s .halt hr hpos (by omega) hd rfl
    exact ⟨_, hstep, rfl, rfl, State.nextPc_of_toInt hlast⟩

/-! ### A step completes or faults -/

/-- Every instruction answers a next state: it is counted and leaves the record, ending the run only by halting, or it
takes a fault (R95). -/
theorem exec_completes_or_faults (i : Instr) (s : State) :
    (∃ t, exec i s = .next t ∧ (t.run = s.run ∨ t.run = .halted) ∧ t.icount = s.icount + 1 ∧
      t.faultInfo = s.faultInfo) ∨
    ∃ r, exec i s = .next (s.takeFault r) := by
  cases i with
  | lw a b f =>
    by_cases hm : s.inMemory (s.effectiveAddress a f)
    · exact .inl ⟨_, exec_lw_inMemory hm, .inl rfl, rfl, rfl⟩
    · exact .inr ⟨_, exec_lw_outside hm⟩
  | sw a b f =>
    by_cases hm : s.inMemory (s.effectiveAddress a f)
    · exact .inl ⟨_, exec_sw_inMemory hm, .inl rfl, rfl, rfl⟩
    · exact .inr ⟨_, exec_sw_outside hm⟩
  | add | nor | beq | jalr | noop => exact .inl ⟨_, rfl, .inl rfl, rfl, rfl⟩
  | halt => exact .inl ⟨_, rfl, .inr rfl, rfl, rfl⟩

/-- Settles O13: the fetch fault comes first, and a fetched instruction completes or takes one fault. -/
theorem stepCompletesOrFaultsNeverBoth : Obligations.StepCompletesOrFaultsNeverBoth := by
  intro s t hr h
  obtain ⟨-, ⟨-, rfl⟩ | ⟨hf, he⟩⟩ := step_cases h
  · exact .inr ⟨rfl, rfl, rfl, rfl, rfl, _, rfl, fun _ => rfl⟩
  · obtain ⟨u, hu, hrun, hcount, hinfo⟩ | ⟨r, hu⟩ := exec_completes_or_faults (decode (s.wordAt (slot s.pc))) s
    · obtain rfl := Host.Outcome.next.inj (hu.symm.trans he)
      refine .inl ⟨?_, hcount, hinfo⟩
      rcases hrun with hrun | hrun <;> simp [hrun, hr]
    · obtain rfl := Host.Outcome.next.inj (hu.symm.trans he)
      exact .inr ⟨rfl, rfl, rfl, rfl, rfl, r, rfl, fun hnf => absurd hf hnf⟩

/-! ### Steps and runs -/

/-- A running machine has a next state. -/
theorem exists_step_of_running (hr : s.run = .running) : ∃ t, step s = .next t := by
  by_cases hf : s.fetchable
  · rw [step_of_fetchable hr hf]
    obtain ⟨t, ht, -⟩ | ⟨r, ht⟩ := exec_completes_or_faults (decode (s.wordAt (slot s.pc))) s
    · exact ⟨t, ht⟩
    · exact ⟨_, ht⟩
  · exact ⟨_, step_of_unfetchable hr hf⟩

theorem step_ne_next_of_not_running (hr : s.run ≠ .running) (t : State) : step s ≠ .next t :=
  fun h => hr (running_of_step h)

/-- The step loop leaves an ended machine as it is. -/
theorem State.runFor_of_not_running (hr : s.run ≠ .running) (n : Nat) : s.runFor n = s := by
  cases n with
  | zero => rfl
  | succ n =>
    unfold State.runFor
    split
    · next t ht => exact absurd ht (step_ne_next_of_not_running hr t)
    · rfl
    · rfl

/-- Settles O12: the two ends of a run are exactly the states without a step. -/
theorem stepExistsExactlyWhileRunning : Obligations.StepExistsExactlyWhileRunning := fun _ =>
  ⟨exists_step_of_running, fun hr => ⟨step_ne_next_of_not_running hr, State.runFor_of_not_running hr⟩⟩

/-- A run of `n + m` steps is one of `n` followed by one of `m`. -/
theorem State.runFor_add (s : State) (n m : Nat) : s.runFor (n + m) = (s.runFor n).runFor m := by
  induction n generalizing s with
  | zero =>
    rw [Nat.zero_add]
    rfl
  | succ n ih =>
    by_cases hr : s.run = .running
    · obtain ⟨t, ht⟩ := exists_step_of_running hr
      rw [Nat.add_right_comm, State.runFor_succ_of_step _ ht, State.runFor_succ_of_step _ ht, ih]
    · simp only [State.runFor_of_not_running hr]

theorem State.result_eq_none_iff {n : Nat} : s.result n = none ↔ (s.runFor n).run = .running := by
  unfold State.result
  cases (s.runFor n).run <;> simp

/-- What is shown is the report of an ended run (R97). -/
theorem State.result_eq_some_iff {n : Nat} {o : Observation} :
    s.result n = some o ↔ (s.runFor n).run ≠ .running ∧ (s.runFor n).observe = o := by
  unfold State.result
  cases (s.runFor n).run <;> simp

/-- Settles O18: a run that has ended stays where it is, so more fuel shows the same report. -/
theorem exhaustedFuelIsNoEnd : Obligations.ExhaustedFuelIsNoEnd := by
  refine fun s n m => ⟨State.result_eq_none_iff, fun o ho => ?_⟩
  obtain ⟨hend, rfl⟩ := State.result_eq_some_iff.mp ho
  have hstay : s.runFor (n + m) = s.runFor n := by
    rw [State.runFor_add, State.runFor_of_not_running hend]
  refine ⟨State.result_eq_some_iff.mpr ?_, hend⟩
  rw [hstay]
  exact ⟨hend, rfl⟩

/-! ### The listing of the spec -/

/-- The opcode bits cut from the word directly are the opcode number (R62). -/
theorem extractLsb'_opcode (w : Word) : w.extractLsb' 22 3 = BitVec.ofNat 3 (opcodeOf w).number := by
  refine BitVec.eq_of_toNat_eq ?_
  rw [opcodeOf_number, slice_eq_extractLsb]
  simp

/-- The instruction a word decodes to does what the listing says for the word (R96). -/
theorem exec_decode_eq_listedCase (w : Word) (s : State) : exec (decode w) s = .next (listedCase w s) := by
  rw [decode, listedCase, extractLsb'_opcode]
  simp only [← regAOf_eq_regField, ← regBOf_eq_regField, ← destOf_eq_regField, ← field16Of_eq_extractLsb']
  cases opcodeOf w with
  | add | nor | jalr | halt | noop => rfl
  | lw =>
    rw [decodeAs]
    by_cases hm : s.inMemory (s.effectiveAddress (regAOf w) (field16Of w))
    · rw [exec_lw_inMemory hm, slot_eq_toNat hm.1]
      exact congrArg _ (if_pos hm).symm
    · rw [exec_lw_outside hm]
      exact congrArg _ (if_neg hm).symm
  | sw =>
    rw [decodeAs]
    by_cases hm : s.inMemory (s.effectiveAddress (regAOf w) (field16Of w))
    · rw [exec_sw_inMemory hm, slot_eq_toNat hm.1]
      exact congrArg _ (if_pos hm).symm
    · rw [exec_sw_outside hm]
      exact congrArg _ (if_neg hm).symm
  | beq =>
    simp only [decodeAs, exec, execBeq, State.regsEqual_iff]
    rfl

/-- Settles O10: the fetch test of the listing is the fetch bound, and its cases are those of the decoder. -/
theorem stepIsTheListing : Obligations.StepIsTheListing := by
  intro s hr
  unfold listing
  split
  · next hf => rw [step_of_fetchable hr hf, slot_eq_toNat hf.1, exec_decode_eq_listedCase]
  · next hf => exact step_of_unfetchable hr hf

/-! ### Unloaded memory -/

/-- A listed word does not depend on the power-on contents. -/
theorem State.wordAt_withPowerOn {a : Nat} (p : Nat) (h : s.mem.find a ≠ none) :
    (s.withPowerOn p).wordAt a = s.wordAt a := by
  obtain ⟨v, hv⟩ := Option.ne_none_iff_exists'.mp h
  rw [State.wordAt_of_find hv, State.wordAt_of_find (s := s.withPowerOn p) hv]

/-- The power-on contents change nothing in an instruction, unless it loads a word that nothing has determined (R98). -/
theorem exec_withPowerOn {i : Instr} (p : Nat)
    (hlw : ∀ a b f, i = .lw a b f → s.inMemory (s.effectiveAddress a f) →
      s.mem.find (slot (s.effectiveAddress a f)) ≠ none)
    (h : exec i s = .next t) : exec i (s.withPowerOn p) = .next (t.withPowerOn p) := by
  cases i with
  | lw a b f =>
    by_cases hm : s.inMemory (s.effectiveAddress a f)
    · obtain rfl := Host.Outcome.next.inj ((exec_lw_inMemory hm).symm.trans h)
      rw [← State.wordAt_withPowerOn p (hlw a b f rfl hm)]
      exact exec_lw_inMemory (s := s.withPowerOn p) hm
    · obtain rfl := Host.Outcome.next.inj ((exec_lw_outside hm).symm.trans h)
      exact exec_lw_outside (s := s.withPowerOn p) hm
  | sw a b f =>
    by_cases hm : s.inMemory (s.effectiveAddress a f)
    · obtain rfl := Host.Outcome.next.inj ((exec_sw_inMemory hm).symm.trans h)
      exact exec_sw_inMemory (s := s.withPowerOn p) hm
    · obtain rfl := Host.Outcome.next.inj ((exec_sw_outside hm).symm.trans h)
      exact exec_sw_outside (s := s.withPowerOn p) hm
  | add | nor | beq | jalr | halt | noop =>
    obtain rfl := Host.Outcome.next.inj h
    rfl

/-- Settles O23: the image is listed, so the fetch reads no free value, and a load reads one only where nothing has
determined the word. -/
theorem unloadedContentsMatterOnlyToLoads : Obligations.UnloadedContentsMatterOnlyToLoads := by
  intro s t p hr himg hlw h
  obtain ⟨-, ⟨hf, rfl⟩ | ⟨hf, he⟩⟩ := step_cases h
  · exact step_of_unfetchable (s := s.withPowerOn p) hr hf
  · have hword := State.wordAt_withPowerOn p (himg _ (State.slot_pc_lt_numLoaded hf))
    rw [step_of_fetchable (s := s.withPowerOn p) hr hf]
    change exec (decode ((s.withPowerOn p).wordAt (slot s.pc))) (s.withPowerOn p) = _
    rw [hword]
    rw [← slot_eq_toNat hf.1] at hlw
    exact exec_withPowerOn p hlw he

end

end Sys2Proof.Machine
end

section
/-! SUPPORT. `add` and `nor` (41_arithmetic.md R100, R101): the word of a given opcode, the canonical word as a number, the
frame of an instruction that completes with one register written, and the bits of the complemented OR. -/

namespace Sys2Proof.Machine

/-! ### Encoding -/

/-- A word whose bits 24:22 are an opcode number is an instruction of that opcode, with the word's own fields (R69). -/
theorem decode_of_opcodeBits {w : Word} {op : Opcode} (h : w.extractLsb 24 22 = BitVec.ofNat 3 op.number) :
    decode w = decodeAs op w := by
  refine decode_of_opcode (opcodeOf_eq_iff.mpr ?_)
  rw [slice_eq_extractLsb, h]
  exact Nat.mod_eq_of_lt op.number_lt

/-- An encoded word as the number of R77, for any integer field. -/
theorem enc_eq_ofNat (op : Opcode) (a b : Reg) (f : Int) :
    enc op a b f =
      BitVec.ofNat 32 (op.number * 2 ^ 22 + a.val * 2 ^ 19 + b.val * 2 ^ 16 + (f % 65536).toNat) := by
  rw [← enc_toNat, BitVec.ofNat_toNat, BitVec.setWidth_eq]

/-- The field of an R-type word is its destination, which no reduction changes (R66). -/
theorem enc_reg_eq_ofNat (op : Opcode) (a b d : Reg) :
    enc op a b d.val = BitVec.ofNat 32 (op.number * 2 ^ 22 + a.val * 2 ^ 19 + b.val * 2 ^ 16 + d.val) := by
  have hd : ((d.val : Int) % 65536).toNat = d.val := by omega
  rw [enc_eq_ofNat, hd]

/-! ### The frame -/

/-- What completing with one register written leaves as it was: the other registers, all memory, the loaded-word count, the
record and the parameters; and it counts the instruction. -/
theorem State.writeReg_complete_frame (s : State) (d : Reg) (v p : Word) :
    s.SameRegsExcept [d] ((s.writeReg d v).complete p) ∧ s.SameMemoryExcept [] ((s.writeReg d v).complete p) ∧
      s.Counted ((s.writeReg d v).complete p) :=
  ⟨fun _ hr => State.readReg_writeReg_of_ne fun h => hr (List.mem_singleton.mpr h.symm), fun _ _ => rfl,
    rfl, rfl, rfl, rfl⟩

theorem State.readReg_writeReg_complete (s : State) (d : Reg) (v p : Word) :
    ((s.writeReg d v).complete p).readReg d = v := by
  rw [State.complete_readReg, State.readReg_writeReg_self]

/-! ### The bits of `nor` -/

/-- The complement of an OR, bit by bit: 1 exactly when both bits are 0 (R101). -/
theorem getLsb_not_or (x y : Word) (i : Fin 32) : (~~~(x ||| y)).getLsb i = (!x.getLsb i && !y.getLsb i) := by
  simp only [BitVec.getLsb_eq_getElem, Fin.getElem_fin, BitVec.getElem_not, BitVec.getElem_or, Bool.not_or]

/-! ### The obligations -/

/-- Settles O24: the sum of two Words is the sum of their numbers modulo 2^32, and the frame is that of one register
written. -/
theorem addWritesTheSum : Obligations.AddWritesTheSum := by
  refine ⟨fun w h => ?_, fun a b d => ?_, fun a b d s => ⟨_, rfl, ?_, rfl, rfl, State.writeReg_complete_frame ..⟩⟩
  · rw [decode_of_opcodeBits (op := .add) h, decodeAs, regAOf_eq_regField, regBOf_eq_regField, destOf_eq_regField]
  · rw [encode, enc_reg_eq_ofNat, Opcode.number, Nat.zero_mul, Nat.zero_add]
  · rw [State.readReg_writeReg_complete, BitVec.add_def]

/-- Settles O25: the complement of an OR is 1 where both bits are 0, and the frame is that of one register written. -/
theorem norWritesTheComplementOfTheOr : Obligations.NorWritesTheComplementOfTheOr := by
  refine ⟨fun w h => ?_, fun a b d => ?_, fun a b d s =>
    ⟨_, rfl, fun i => ?_, rfl, rfl, State.writeReg_complete_frame ..⟩⟩
  · rw [decode_of_opcodeBits (op := .nor) h, decodeAs, regAOf_eq_regField, regBOf_eq_regField, destOf_eq_regField]
  · rw [encode, enc_reg_eq_ofNat, Opcode.number]
  · rw [State.readReg_writeReg_complete, getLsb_not_or]

end Sys2Proof.Machine
end

section
/-! SUPPORT. `lw` and `sw` (42_load_store.md R111, R112): the 16-bit field of an I-type word, the addresses outside
memory, and the frame of an instruction that completes with one word stored. -/

namespace Sys2Proof.Machine

/-! ### Encoding -/

theorem field16Of_eq_extractLsb (w : Word) : field16Of w = w.extractLsb 15 0 :=
  field16Of_eq_extractLsb' w

/-- The field of an I-type word is its 16 bits as they are, read without a sign (R65). -/
theorem enc_field16_eq_ofNat (op : Opcode) (a b : Reg) (f : Field16) :
    enc op a b f.toInt = BitVec.ofNat 32 (op.number * 2 ^ 22 + a.val * 2 ^ 19 + b.val * 2 ^ 16 + f.toNat) := by
  rw [enc_eq_ofNat, Field16.toInt_emod]

/-! ### The data bound -/

/-- The two sides on which an address lies outside memory (R181). -/
theorem State.not_inMemory_iff {s : State} {addr : Word} :
    ¬ s.inMemory addr ↔ addr.toInt < 0 ∨ (s.cfg.memWords : Int) ≤ addr.toInt := by
  rw [State.inMemory, not_and_or, not_le, not_lt]

/-! ### The frame -/

/-- What completing with one word stored leaves as it was: every register, the other words of memory, the loaded-word
count, the record and the parameters; and it counts the instruction. -/
theorem State.storeAt_complete_frame (s : State) (a : Nat) (v p : Word) :
    s.SameRegsExcept [] ((s.storeAt a v).complete p) ∧ s.SameMemoryExcept [a] ((s.storeAt a v).complete p) ∧
      s.Counted ((s.storeAt a v).complete p) := by
  refine ⟨fun _ _ => rfl, fun c hc => ?_, rfl, rfl, rfl, rfl⟩
  have hne : a ≠ c := fun h => hc (List.mem_singleton.mpr h.symm)
  rw [State.complete_wordAt, State.wordAt_storeAt, if_neg hne]

theorem State.wordAt_storeAt_complete (s : State) (a : Nat) (v p : Word) :
    ((s.storeAt a v).complete p).wordAt a = v := by
  rw [State.complete_wordAt, State.wordAt_storeAt_self]

/-! ### The obligations -/

/-- Settles O26: inside memory the slot of the address is its unsigned value and the frame is that of one register
written; outside, the load takes its fault. -/
theorem lwLoadsTheWordOrFaults : Obligations.LwLoadsTheWordOrFaults := by
  refine ⟨fun w h => ?_, fun a b f => ?_, fun a b f s => ⟨fun hin => ?_, fun hout => ?_⟩⟩
  · rw [decode_of_opcodeBits (op := .lw) h, decodeAs, regAOf_eq_regField, regBOf_eq_regField, field16Of_eq_extractLsb]
  · rw [encode, enc_field16_eq_ofNat, Opcode.number]
  · refine ⟨_, exec_lw_inMemory hin, ?_, rfl, rfl, State.writeReg_complete_frame ..⟩
    rw [State.readReg_writeReg_complete, State.effectiveAddress, slot_eq_toNat hin.1]
  · exact exec_lw_outside (State.not_inMemory_iff.mpr hout)

/-- Settles O27: inside memory the frame is that of one word stored; outside, the store takes its fault. -/
theorem swStoresTheWordOrFaults : Obligations.SwStoresTheWordOrFaults := by
  refine ⟨fun w h => ?_, fun a b f => ?_, fun a b f s => ⟨fun hin => ?_, fun hout => ?_⟩⟩
  · rw [decode_of_opcodeBits (op := .sw) h, decodeAs, regAOf_eq_regField, regBOf_eq_regField, field16Of_eq_extractLsb]
  · rw [encode, enc_field16_eq_ofNat, Opcode.number]
  · exact ⟨_, exec_sw_inMemory hin, State.wordAt_storeAt_complete .., rfl, rfl, State.storeAt_complete_frame ..⟩
  · exact exec_sw_outside (State.not_inMemory_iff.mpr hout)

end Sys2Proof.Machine
end

section
/-! SUPPORT. `beq` and `jalr` (43_control_transfer.md R120, R121, R124): the transition of `beq`, the frame of an
instruction that only completes, and the offset an assembled `beq` line carries. -/

namespace Sys2Proof.Machine

/-! ### The transitions -/

/-- `beq`, with its condition as an equation of registers. -/
theorem exec_beq (a b : Reg) (f : Field16) (s : State) :
    exec (.beq a b f) s =
      .next (s.complete (if s.readReg a = s.readReg b then s.branchTarget f else s.nextPc)) := by
  simp only [exec, execBeq, State.regsEqual_iff]

/-- What completing alone leaves as it was: every register, all memory, the loaded-word count, the record and the
parameters; and it counts the instruction. -/
theorem State.complete_frame (s : State) (p : Word) :
    s.SameRegsExcept [] (s.complete p) ∧ s.SameMemoryExcept [] (s.complete p) ∧ s.Counted (s.complete p) :=
  ⟨fun _ _ => rfl, fun _ _ => rfl, rfl, rfl, rfl, rfl⟩

/-- Settles O28: the condition is the equality of the two registers, and the frame is that of completing alone. -/
theorem beqBranchesOnEquality : Obligations.BeqBranchesOnEquality := by
  refine ⟨fun w h => ?_, fun a b f => ?_, fun a b f s =>
    ⟨_, exec_beq a b f s, fun heq => if_pos heq, fun hne => if_neg hne, rfl, State.complete_frame ..⟩⟩
  · rw [decode_of_opcodeBits (op := .beq) h, decodeAs, regAOf_eq_regField, regBOf_eq_regField, field16Of_eq_extractLsb]
  · rw [encode, enc_field16_eq_ofNat, Opcode.number]

/-- Settles O29: the target is read from the state before the link is written, and the frame is that of one register
written. -/
theorem jalrJumpsAndLinks : Obligations.JalrJumpsAndLinks := by
  refine ⟨fun w h => ?_, fun a b => ?_, fun a b s =>
    ⟨_, rfl, rfl, State.readReg_writeReg_complete .., rfl, State.writeReg_complete_frame ..⟩⟩
  · rw [decode_of_opcodeBits (op := .jalr) h, decodeAs, regAOf_eq_regField, regBOf_eq_regField]
  · rw [encode, enc_eq_ofNat, Int.zero_emod, Int.toNat_zero, Nat.add_zero, Opcode.number]

/-! ### The assembled branch -/

/-- A word made from an offset in range decodes to that offset (R78). -/
theorem sext32_field16Of_enc_toInt {f : Int} (op : Opcode) (a b : Reg) (hlo : -32768 ≤ f) (hhi : f ≤ 32767) :
    (sext32 (field16Of (enc op a b f))).toInt = f := by
  obtain ⟨-, -, -, -, -, hoffset⟩ := agreementOfEncAndDecoder op a b f
  exact hoffset ⟨hlo, hhi⟩

/-- An I-type line that encodes gives a word of its opcode, and the word's offset is the operand's value, whole (R154). -/
theorem opcode_offset_of_encodeIType {op : Opcode} {line : Line} {offset : Except AsmError Int} {w : Word}
    (h : encodeIType op line offset = .ok w) :
    opcodeOf w = op ∧ offset = .ok (sext32 (field16Of w)).toInt := by
  obtain ⟨a, b, o, -, -, rfl, hlo, hhi, rfl⟩ := encodeIType_ok h
  rw [sext32_field16Of_enc_toInt op a b hlo hhi]
  exact ⟨opcodeOf_enc .., rfl⟩

theorem encodeLine_of_beq {line : Line} (h : mnemonicOf line.opcode = some (.instr .beq)) (i : Nat)
    (table : LabelTable) :
    encodeLine i table line = encodeIType .beq line (relativeOperand i table line.arg2) := by
  rw [encodeLine, h]

/-- A numeric operand of `beq` is its literal (R154). -/
theorem relativeOperand_of_numeric {token : String} {o : Int} (h : numericValue token = some o) (i : Nat)
    (table : LabelTable) : relativeOperand i table token = .ok o := by
  rw [relativeOperand, h]

/-- A label operand of `beq` is the label's value, relative to the following line (R156). -/
theorem relativeOperand_of_label {table : LabelTable} {token : String} {v : Word} (h : numericValue token = none)
    (hv : resolve table token = .ok v) (i : Nat) : relativeOperand i table token = .ok (v.toInt - (i + 1)) := by
  rw [relativeOperand, h, hv]
  rfl

/-- The pc-relative target undoes the subtraction of the following line's address, modulo 2^32 (R124). -/
theorem State.branchTarget_of_relative {s : State} {i : Nat} {f : Field16} {v : Word} (hpc : s.pc = BitVec.ofNat 32 i)
    (hf : (sext32 f).toInt = v.toInt - (i + 1)) : s.branchTarget f = v := by
  have hnext : s.nextPc = BitVec.ofInt 32 (i + 1) := by
    rw [State.nextPc, hpc, BitVec.ofInt_add, BitVec.ofInt_natCast]
    rfl
  calc s.nextPc + sext32 f
      = BitVec.ofInt 32 (i + 1) + BitVec.ofInt 32 (v.toInt - (i + 1)) := by rw [hnext, ← hf, BitVec.ofInt_toInt]
    _ = BitVec.ofInt 32 v.toInt := by rw [← BitVec.ofInt_add, add_sub_cancel]
    _ = v := BitVec.ofInt_toInt

/-- Settles O50: the word carries the operand's value, which is the literal, or the label's distance from the following
line. -/
theorem assembledBranchLandsOnItsLabel : Obligations.AssembledBranchLandsOnItsLabel := by
  intro i table line w hbeq hw
  rw [encodeLine_of_beq hbeq] at hw
  obtain ⟨hop, hoffset⟩ := opcode_offset_of_encodeIType hw
  refine ⟨fun v s hlabel hv hpc heq => ?_, fun o ho => ?_⟩
  · rw [relativeOperand_of_label hlabel hv] at hoffset
    rw [decode_of_opcode hop, decodeAs, exec_beq, if_pos heq]
    exact ⟨_, rfl, State.branchTarget_of_relative hpc (Except.ok.inj hoffset).symm⟩
  · rw [relativeOperand_of_numeric ho] at hoffset
    exact (Except.ok.inj hoffset).symm

end Sys2Proof.Machine
end

section
/-! SUPPORT. `halt` and `noop` (44_halt_noop.md R130, R131): their transitions, and the frame of the instruction that completes
and then halts. -/

namespace Sys2Proof.Machine

/-! ### The transitions -/

theorem exec_halt (s : State) : exec .halt s = .next (s.complete s.nextPc).halt := rfl

theorem exec_noop (s : State) : exec .noop s = .next (s.complete s.nextPc) := rfl

/-- Halting writes the run-state alone, of which the frame does not speak, so what completing leaves is left (R130). -/
theorem State.complete_halt_frame (s : State) (p : Word) :
    s.SameRegsExcept [] (s.complete p).halt ∧ s.SameMemoryExcept [] (s.complete p).halt ∧
      s.Counted (s.complete p).halt :=
  State.complete_frame s p

/-- A halted machine takes no further step (R90, R130). -/
theorem step_halt_ne_next (s t : State) : step s.halt ≠ .next t :=
  step_ne_next_of_not_running (by rw [State.halt_run]; exact RunState.noConfusion) t

/-! ### The obligations -/

/-- Settles O30: the machine completes and then halts, and a halted machine has no step. -/
theorem haltStopsTheMachine : Obligations.HaltStopsTheMachine :=
  ⟨fun _ h => decode_of_opcodeBits (op := .halt) h, enc_eq_ofNat .halt 0 0 0, fun s =>
    ⟨_, exec_halt s, rfl, State.halt_run _, step_halt_ne_next _, State.complete_halt_frame ..⟩⟩

/-- Settles O31: the transition is completing alone, and so is the frame. -/
theorem noopOnlyAdvancesThePc : Obligations.NoopOnlyAdvancesThePc :=
  ⟨fun _ h => decode_of_opcodeBits (op := .noop) h, enc_eq_ofNat .noop 0 0 0, fun s =>
    ⟨_, exec_noop s, rfl, State.complete_run .., State.complete_frame ..⟩⟩

end Sys2Proof.Machine
end

section
/-! SUPPORT. Pass 1 of the encoder and the label table (45_encoder_labels_fill.md R143 to R148, R157): what pass 1 does at one
line of a program, and what it keeps of the entries it has made. -/

namespace Sys2Proof.Machine

/-! ### Insertion and resolution -/

theorem resolve_of_find {table : LabelTable} {name : String} {v : Word} (h : tableFind table name = some v) :
    resolve table name = .ok v := by
  rw [resolve, h]

theorem resolve_of_absent {table : LabelTable} {name : String} (h : tableFind table name = none) :
    resolve table name = .error .undefinedLabel := by
  rw [resolve, h]

/-- The only error of a resolution is the absent label (R144). -/
theorem resolve_eq_ok_iff {table : LabelTable} {name : String} {v : Word} :
    resolve table name = .ok v ↔ tableFind table name = some v := by
  cases h : tableFind table name with
  | none => simp [resolve_of_absent h]
  | some u => simp [resolve_of_find h]

theorem tableInsert_of_invalid {name : String} (table : LabelTable) (v : Word) (h : validLabel name = false) :
    tableInsert table name v = .error .invalidLabel := by
  rw [tableInsert, h, if_neg Bool.false_ne_true]

theorem tableInsert_of_present {table : LabelTable} {name : String} (v : Word) (h : validLabel name = true)
    (hfind : tableFind table name ≠ none) : tableInsert table name v = .error .duplicateLabel := by
  obtain ⟨u, hu⟩ := Option.ne_none_iff_exists'.mp hfind
  rw [tableInsert, if_pos h, hu]

theorem tableInsert_of_new {table : LabelTable} {name : String} (v : Word) (h : validLabel name = true)
    (hfind : tableFind table name = none) : tableInsert table name v = .ok ((name, v) :: table) := by
  rw [tableInsert, if_pos h, hfind]

/-- A new entry is resolved to its value, and every other name as before (R143). -/
theorem resolve_cons (table : LabelTable) (name other : String) (v : Word) :
    resolve ((name, v) :: table) other = if name = other then .ok v else resolve table other := by
  by_cases h : name = other <;> simp [resolve, tableFind_cons, h]

/-! ### The pass, line by line -/

theorem pass1_cons (i : Nat) (table : LabelTable) (line : Line) (lines : List Line) :
    pass1 i table (line :: lines) = collectLabel i table line >>= fun mid => pass1 (i + 1) mid lines := by
  rw [pass1]
  cases collectLabel i table line <;> rfl

theorem pass1_append (i : Nat) (table : LabelTable) (lines rest : List Line) :
    pass1 i table (lines ++ rest) =
      pass1 i table lines >>= fun mid => pass1 (i + lines.length) mid rest := by
  induction lines generalizing i table with
  | nil => rfl
  | cons line lines ih =>
    have hlen : i + (line :: lines).length = i + 1 + lines.length := by rw [List.length_cons]; omega
    simp only [List.cons_append, pass1_cons, bind_assoc, ih, hlen]

/-- Pass 1 of a program, seen from one of its lines: the earlier lines, then that line and the later ones (R145). -/
theorem pass1_at {lines : List Line} {i : Nat} {line : Line} (h : lines[i]? = some line) :
    pass1 0 [] lines =
      pass1 0 [] (lines.take i) >>= fun before => pass1 i before (line :: lines.drop (i + 1)) := by
  obtain ⟨hi, rfl⟩ := List.getElem?_eq_some_iff.mp h
  have hlen : 0 + (lines.take i).length = i := by rw [List.length_take]; omega
  calc pass1 0 [] lines
      = pass1 0 [] (lines.take i ++ lines[i] :: lines.drop (i + 1)) := by
        rw [List.getElem_cons_drop, List.take_append_drop]
    _ = _ := by rw [pass1_append, hlen]

/-- A pass that finishes has passed the earlier lines. -/
theorem pass1_ok_at {lines : List Line} {i : Nat} {line : Line} {table : LabelTable} (h : lines[i]? = some line)
    (hpass : pass1 0 [] lines = .ok table) :
    ∃ before, pass1 0 [] (lines.take i) = .ok before ∧ pass1 i before (line :: lines.drop (i + 1)) = .ok table := by
  rw [pass1_at h] at hpass
  cases hbefore : pass1 0 [] (lines.take i) with
  | error e => rw [hbefore] at hpass; cases hpass
  | ok before => rw [hbefore] at hpass; exact ⟨before, rfl, hpass⟩

/-- An error of pass 1 is the assembly's. -/
theorem assemble_of_pass1_error {lines : List Line} {e : AsmError} (h : pass1 0 [] lines = .error e) :
    assemble lines = .error e := by
  rw [assemble, h]

/-- The first line that fails in pass 1 gives the assembly's error (R160). -/
theorem assemble_of_collectLabel_error {lines : List Line} {i : Nat} {line : Line} {before : LabelTable} {e : AsmError}
    (h : lines[i]? = some line) (hbefore : pass1 0 [] (lines.take i) = .ok before)
    (he : collectLabel i before line = .error e) : assemble lines = .error e := by
  refine assemble_of_pass1_error ?_
  calc pass1 0 [] lines
      = pass1 i before (line :: lines.drop (i + 1)) := by rw [pass1_at h, hbefore]; rfl
    _ = .error e := by rw [pass1_cons, he]; rfl

theorem collectLabel_of_value_error {i : Nat} {table : LabelTable} {line : Line} {e : AsmError} (hl : line.label ≠ "")
    (h : labelValue i table line = .error e) : collectLabel i table line = .error e := by
  rw [collectLabel, if_neg hl, h]

theorem collectLabel_of_value {i : Nat} {table : LabelTable} {line : Line} {v : Word} (hl : line.label ≠ "")
    (h : labelValue i table line = .ok v) : collectLabel i table line = tableInsert table line.label v := by
  rw [collectLabel, if_neg hl, h]

/-! ### What pass 1 keeps -/

/-- A property of tables that every insertion that succeeds keeps holds after pass 1, once it holds before. -/
theorem pass1_keeps {P : LabelTable → Prop}
    (hinsert : ∀ (table : LabelTable) (name : String) (v : Word), validLabel name = true → tableFind table name = none →
      P table → P ((name, v) :: table))
    {i : Nat} {table table' : LabelTable} {lines : List Line} (h : pass1 i table lines = .ok table') (hP : P table) :
    P table' := by
  induction lines generalizing i table with
  | nil => cases h; exact hP
  | cons line lines ih =>
    obtain ⟨mid, hmid, hrest⟩ := pass1_cons_ok h
    refine ih hrest ?_
    rcases collectLabel_ok hmid with ⟨-, rfl⟩ | ⟨-, v, -, hvalid, hnew, rfl⟩
    · exact hP
    · exact hinsert table line.label v hvalid hnew hP

/-- An entry, once made, is never changed or removed (R143). -/
theorem tableFind_pass1 {i : Nat} {table table' : LabelTable} {lines : List Line} {name : String} {v : Word}
    (h : pass1 i table lines = .ok table') (hfind : tableFind table name = some v) : tableFind table' name = some v := by
  refine pass1_keeps (P := fun t => tableFind t name = some v) (fun t other u _ hnew ht => ?_) h hfind
  have hne : other ≠ name := by
    rintro rfl
    rw [hnew] at ht
    cases ht
  rw [tableFind_cons, if_neg hne, ht]

/-- Pass 1 makes entries of valid names alone (R143, R144). -/
theorem validLabel_of_find_pass1 {i : Nat} {lines : List Line} {table : LabelTable} {name : String}
    (h : pass1 i [] lines = .ok table) (hfind : tableFind table name ≠ none) : validLabel name = true := by
  refine pass1_keeps (P := fun t => tableFind t name ≠ none → validLabel name = true) (fun t other u hvalid _ ht => ?_) h
    (fun hnil => absurd rfl hnil) hfind
  rw [tableFind_cons]
  split
  · next he => exact fun _ => he ▸ hvalid
  · exact ht

/-- A label of the lines passed has an entry. -/
theorem tableFind_ne_none_of_pass1 {i : Nat} {table table' : LabelTable} {lines : List Line} {line : Line}
    (h : pass1 i table lines = .ok table') (hmem : line ∈ lines) (hl : line.label ≠ "") :
    tableFind table' line.label ≠ none :=
  fun hnone => tableFind_eq_none_iff.mp hnone ((mem_names_pass1 h).mpr (.inr ⟨hl, line, hmem, rfl⟩))

/-- A name that no line passed carries has no entry. -/
theorem tableFind_eq_none_of_pass1 {i : Nat} {table : LabelTable} {lines : List Line} {name : String}
    (h : pass1 i [] lines = .ok table) (hno : ∀ line ∈ lines, line.label ≠ name) : tableFind table name = none := by
  rw [tableFind_eq_none_iff, mem_names_pass1 h]
  rintro (hnil | ⟨-, line, hmem, hlabel⟩)
  · cases hnil
  · exact hno line hmem hlabel

/-! ### The value of a label -/

/-- A `.fill` literal in the signed 32-bit range is kept whole (R147, R157). -/
theorem fillValue_of_literal {token : String} {k : Int} (table : LabelTable) (h : numericValue token = some k)
    (hlo : -2 ^ 31 ≤ k) (hhi : k ≤ 2 ^ 31 - 1) : fillValue table token = .ok (Word.ofInteger k) := by
  rw [fillValue, h]
  exact if_pos ⟨hlo, hhi⟩

theorem fillValue_of_literal_outside {token : String} {k : Int} (table : LabelTable) (h : numericValue token = some k)
    (hout : k < -2 ^ 31 ∨ 2 ^ 31 - 1 < k) : fillValue table token = .error .fillRange := by
  rw [fillValue, h]
  exact if_neg (by omega)

theorem fillValue_of_symbol {token : String} (table : LabelTable) (h : numericValue token = none) :
    fillValue table token = resolve table token := by
  rw [fillValue, h]

/-- Later entries do not change a value that a `.fill` operand has. -/
theorem fillValue_pass1 {i : Nat} {table table' : LabelTable} {lines : List Line} {token : String} {v : Word}
    (h : pass1 i table lines = .ok table') (hv : fillValue table token = .ok v) : fillValue table' token = .ok v := by
  cases hk : numericValue token with
  | none =>
    rw [fillValue_of_symbol _ hk] at hv ⊢
    exact resolve_of_find (tableFind_pass1 h (resolve_eq_ok_iff.mp hv))
  | some k => rw [← hv, fillValue, fillValue, hk]

theorem toInt_ofInteger {k : Int} (hlo : -2 ^ 31 ≤ k) (hhi : k ≤ 2 ^ 31 - 1) : (Word.ofInteger k).toInt = k :=
  BitVec.toInt_ofInt_eq_self (by decide) hlo (by omega)

theorem labelValue_of_fill {line : Line} (h : line.opcode = ".fill") (i : Nat) (table : LabelTable) :
    labelValue i table line = fillValue table line.arg0 := by
  rw [labelValue, if_pos h]

theorem labelValue_of_instruction {line : Line} (h : line.opcode ≠ ".fill") (i : Nat) (table : LabelTable) :
    labelValue i table line = .ok (addressValue i) := by
  rw [labelValue, if_neg h]

theorem encodeLine_of_fill {line : Line} (h : line.opcode = ".fill") (i : Nat) (table : LabelTable) :
    encodeLine i table line = fillValue table line.arg0 := by
  rw [encodeLine, h, show mnemonicOf ".fill" = some .fill by decide]

/-! ### Two lines with one label -/

/-- A name that an earlier line carries is valid and has an entry when pass 1 comes to a later line. -/
theorem label_present_of_earlier {lines : List Line} {i j : Nat} {line : Line} {before : LabelTable} (hij : i < j)
    (h : lines[i]? = some line) (hl : line.label ≠ "") (hbefore : pass1 0 [] (lines.take j) = .ok before) :
    validLabel line.label = true ∧ tableFind before line.label ≠ none := by
  have hmem : line ∈ lines.take j := List.mem_of_getElem? (by rw [List.getElem?_take_of_lt hij, h])
  have hfind := tableFind_ne_none_of_pass1 hbefore hmem hl
  exact ⟨validLabel_of_find_pass1 hbefore hfind, hfind⟩

end Sys2Proof.Machine
end

section
/-! SUPPORT. The statements about the label table and pass 1 (45_encoder_labels_fill.md R143 to R148, R157, R160). -/

namespace Sys2Proof.Machine

/-- Settles O44: the two checks come in their order, a new entry shadows no other, and pass 1 makes entries of valid names
alone. -/
theorem labelTableInsertAndResolve : Obligations.LabelTableInsertAndResolve := by
  refine ⟨fun table name v => ⟨tableInsert_of_invalid table v, tableInsert_of_present v, fun hvalid hnew =>
    ⟨_, tableInsert_of_new v hvalid hnew, ?_, fun other hne => ?_⟩, resolve_of_absent⟩,
    fun lines table name h hinvalid => ?_⟩
  · rw [resolve_cons, if_pos rfl]
  · rw [resolve_cons, if_neg hne.symm]
  · refine resolve_of_absent (by_contra fun hfind => ?_)
    rw [validLabel_of_find_pass1 h hfind] at hinvalid
    cases hinvalid

/-- Settles O45: the entry is made when pass 1 meets the line, later insertions keep it, and pass 2 evaluates a `.fill`
operand as pass 1 does. -/
theorem labelValueIsAddressOrFilledValue : Obligations.LabelValueIsAddressOrFilledValue := by
  refine ⟨fun lines table i line hpass h hl => ?_, fun i table line hfill => ?_⟩
  · obtain ⟨before, hbefore, hrest⟩ := pass1_ok_at h hpass
    obtain ⟨mid, hmid, hafter⟩ := pass1_cons_ok hrest
    obtain ⟨hnone, -⟩ | ⟨-, v, hv, -, -, rfl⟩ := collectLabel_ok hmid
    · exact absurd hnone hl
    · have hfind : tableFind table line.label = some v := tableFind_pass1 hafter (if_pos rfl)
      refine ⟨v, resolve_of_find hfind, fun hop hi => ?_, fun hop => ⟨?_, before, hbefore, hv⟩⟩
      · rw [labelValue_of_instruction hop] at hv
        cases hv
        exact addressValue_toInt hi
      · rw [labelValue_of_fill hop] at hv
        rw [encodeLine_of_fill hop, fillValue_pass1 hrest hv]
  · rw [labelValue_of_fill hfill, encodeLine_of_fill hfill]
    exact ⟨fun k hk hlo hhi => ⟨_, toInt_ofInteger hlo hhi, and_self_iff.mpr (fillValue_of_literal table hk hlo hhi)⟩,
      fun k hk hout => and_self_iff.mpr (fillValue_of_literal_outside table hk hout),
      fun hk => and_self_iff.mpr (fillValue_of_symbol table hk)⟩

/-- Settles O46: the operand is resolved against the labels of the earlier lines, and the name is none of them. -/
theorem forwardFillReferenceFails : Obligations.ForwardFillReferenceFails := by
  intro lines i line before h hl hfill hsymbol hno hbefore
  have habsent : tableFind before line.arg0 = none := by
    refine tableFind_eq_none_of_pass1 hbefore fun l hmem => ?_
    obtain ⟨j, hj, rfl⟩ := List.mem_take_iff_getElem.mp hmem
    exact hno j _ (by omega) (List.getElem?_eq_getElem (by omega))
  have hvalue : labelValue i before line = .error .undefinedLabel := by
    rw [labelValue_of_fill hfill, fillValue_of_symbol before hsymbol, resolve_of_absent habsent]
  exact assemble_of_collectLabel_error h hbefore (collectLabel_of_value_error hl hvalue)

/-- Settles O47: at the second line the table holds the name, so that no pass over the line succeeds. -/
theorem duplicateLabelsNeverAssemble : Obligations.DuplicateLabelsNeverAssemble := by
  intro lines i j l m hij hi hj heq hl
  refine ⟨?_, fun before v hbefore hv => ?_⟩
  · cases hpass : pass1 0 [] lines with
    | error e => exact ⟨e, assemble_of_pass1_error hpass⟩
    | ok table =>
      obtain ⟨before, hbefore, hrest⟩ := pass1_ok_at hj hpass
      obtain ⟨mid, hmid, -⟩ := pass1_cons_ok hrest
      obtain ⟨-, hfind⟩ := label_present_of_earlier hij hi (heq ▸ hl) hbefore
      obtain ⟨hnone, -⟩ | ⟨-, -, -, -, hnew, -⟩ := collectLabel_ok hmid
      · exact absurd hnone hl
      · exact absurd (heq ▸ hnew) hfind
  · obtain ⟨hvalid, hfind⟩ := label_present_of_earlier hij hi (heq ▸ hl) hbefore
    rw [heq] at hvalid hfind
    exact assemble_of_collectLabel_error hj hbefore
      ((collectLabel_of_value hl hv).trans (tableInsert_of_present v hvalid hfind))

end Sys2Proof.Machine
end

section
/-! SUPPORT. Pass 2 of the encoder (45_encoder_labels_fill.md R149 to R163): the operands of a line, what a line that encodes
says, and the image as the lines' words. -/

namespace Sys2Proof.Machine

/-! ### Operands -/

theorem regOperand_of_symbol {token : String} (h : numericValue token = none) :
    regOperand token = .error .nonIntegerRegister := by
  rw [regOperand, h]

theorem regOperand_of_inRange {token : String} {k : Int} (h : numericValue token = some k) (hlo : 0 ≤ k) (hhi : k ≤ 7) :
    regOperand token = .ok (Fin.ofNat 8 k.toNat) := by
  rw [regOperand, h]
  exact if_pos ⟨hlo, hhi⟩

theorem regOperand_of_outside {token : String} {k : Int} (h : numericValue token = some k) (hout : k < 0 ∨ 7 < k) :
    regOperand token = .error .registerRange := by
  rw [regOperand, h]
  exact if_neg (by omega)

/-- The offset operand of an I-type line before its range check: for `beq` relative to the following line (R154 to R156). -/
def offsetOperand (op : Opcode) (i : Nat) (table : LabelTable) (token : String) : Except AsmError Int :=
  if op = .beq then relativeOperand i table token else absoluteOperand table token

section
variable {table : LabelTable} {token : String} {v : Word} {o : Int} (op : Opcode) (i : Nat)

theorem offsetOperand_of_ne_beq {op : Opcode} (hop : op ≠ .beq) (table : LabelTable) (token : String) :
    offsetOperand op i table token = absoluteOperand table token := if_neg hop

theorem offsetOperand_beq (table : LabelTable) (token : String) :
    offsetOperand .beq i table token = relativeOperand i table token := if_pos rfl

/-- A numeric operand is its literal, for all three mnemonics (R154). -/
theorem offsetOperand_of_numeric (table : LabelTable) (h : numericValue token = some o) :
    offsetOperand op i table token = .ok o := by
  rw [offsetOperand, relativeOperand_of_numeric h, absoluteOperand, h, ite_self]

/-- A label operand of `lw` or `sw` is the label's value (R155). -/
theorem absoluteOperand_of_label (h : numericValue token = none) (hv : resolve table token = .ok v) :
    absoluteOperand table token = .ok v.toInt := by
  rw [absoluteOperand, h, hv]
  rfl

/-- A label the table lacks is an error, for all three mnemonics (R155, R156). -/
theorem offsetOperand_of_absent (h : numericValue token = none) (hfind : tableFind table token = none) :
    offsetOperand op i table token = .error .undefinedLabel := by
  rw [offsetOperand, relativeOperand, absoluteOperand, h, resolve_of_absent hfind]
  exact ite_self _

end

theorem encodeLine_of_iType {op : Opcode} {line : Line} (h : mnemonicOf line.opcode = some (.instr op))
    (hop : op = .lw ∨ op = .sw ∨ op = .beq) (i : Nat) (table : LabelTable) :
    encodeLine i table line = encodeIType op line (offsetOperand op i table line.arg2) := by
  rcases hop with rfl | rfl | rfl <;> rw [encodeLine, h] <;> rfl

section
variable {line : Line} {a b : Reg} (ha : regOperand line.arg0 = .ok a) (hb : regOperand line.arg1 = .ok b) (op : Opcode)
include ha hb

/-- An I-type line whose registers are good is decided by the range of its offset (R154). -/
theorem encodeIType_of_offset (o : Int) :
    encodeIType op line (.ok o) =
      if -32768 ≤ o ∧ o ≤ 32767 then .ok (enc op a b o) else .error .offsetRange := by
  by_cases h : -32768 ≤ o ∧ o ≤ 32767 <;> simp [encodeIType, ha, hb, checkOffset, h, bind, Except.bind]

theorem encodeIType_of_offset_error (e : AsmError) : encodeIType op line (.error e) = .error e := by
  rw [encodeIType, ha, hb]
  rfl

end

/-! ### A line that encodes -/

/-- The operands a line of opcode `op` must spell for its word to be `enc op a b f` (R153 to R159). -/
def SpellsOperands (i : Nat) (table : LabelTable) (line : Line) (op : Opcode) (a b : Reg) (f : Int) : Prop :=
  match op with
  | .add | .nor =>
    numericValue line.arg0 = some (a.val : Int) ∧ numericValue line.arg1 = some (b.val : Int) ∧
      numericValue line.arg2 = some f
  | .lw | .sw | .beq =>
    numericValue line.arg0 = some (a.val : Int) ∧ numericValue line.arg1 = some (b.val : Int) ∧
      offsetOperand op i table line.arg2 = .ok f ∧ -32768 ≤ f ∧ f ≤ 32767
  | .jalr => numericValue line.arg0 = some (a.val : Int) ∧ numericValue line.arg1 = some (b.val : Int) ∧ f = 0
  | .halt | .noop => a = 0 ∧ b = 0 ∧ f = 0

/-- An instruction line that encodes gives the word of its opcode and of the operands it spells. -/
theorem encodeLine_instr_ok {i : Nat} {table : LabelTable} {line : Line} {op : Opcode} {w : Word}
    (hop : mnemonicOf line.opcode = some (.instr op)) (h : encodeLine i table line = .ok w) :
    ∃ a b f, SpellsOperands i table line op a b f ∧ w = enc op a b f := by
  cases op with
  | add | nor =>
    rw [encodeLine, hop] at h
    obtain ⟨a, b, d, ha, hb, hd, rfl⟩ := encodeRType_ok h
    exact ⟨a, b, d, ⟨regOperand_ok ha, regOperand_ok hb, destOperand_ok hd⟩, rfl⟩
  | lw | sw | beq =>
    rw [encodeLine_of_iType hop (by simp)] at h
    obtain ⟨a, b, o, ha, hb, ho, hlo, hhi, rfl⟩ := encodeIType_ok h
    exact ⟨a, b, o, ⟨regOperand_ok ha, regOperand_ok hb, ho, hlo, hhi⟩, rfl⟩
  | jalr =>
    rw [encodeLine, hop] at h
    obtain ⟨a, b, ha, hb, rfl⟩ := encodeJType_ok h
    exact ⟨a, b, 0, ⟨regOperand_ok ha, regOperand_ok hb, rfl⟩, rfl⟩
  | halt | noop =>
    rw [encodeLine, hop] at h
    exact ⟨0, 0, 0, ⟨rfl, rfl, rfl⟩, (Except.ok.inj h).symm⟩

/-- The word of an instruction is canonical (R73). -/
theorem canonical_encode (ins : Instr) : canonical (encode ins) = true :=
  (encodeOfDecodeIsTheCanonicalWord _).mpr (congrArg encode (decodeOfEncodeIsTheInstruction ins (by cases ins <;> rfl)))

/-- The destination kept whole, an R-type word is that of an instruction. -/
theorem canonical_enc_rType {op : Opcode} (hop : op = .add ∨ op = .nor) (a b : Reg) {d : Int} (hlo : 0 ≤ d) (hhi : d ≤ 7) :
    canonical (enc op a b d) = true := by
  have hd : d = ((⟨d.toNat, by omega⟩ : Reg).val : Int) := (Int.toNat_of_nonneg hlo).symm
  rw [hd]
  rcases hop with rfl | rfl
  · exact canonical_encode (.add a b _)
  · exact canonical_encode (.nor a b _)

/-- An offset in range is the signed value of a field, so an I-type word is that of an instruction. -/
theorem canonical_enc_iType {op : Opcode} (hop : op = .lw ∨ op = .sw ∨ op = .beq) (a b : Reg) {o : Int}
    (hlo : -32768 ≤ o) (hhi : o ≤ 32767) : canonical (enc op a b o) = true := by
  have ho : o = (BitVec.ofInt 16 o).toInt := (BitVec.toInt_ofInt_eq_self (by decide) hlo (by omega)).symm
  rw [ho]
  rcases hop with rfl | rfl | rfl
  · exact canonical_encode (.lw a b _)
  · exact canonical_encode (.sw a b _)
  · exact canonical_encode (.beq a b _)

theorem extractLsb_enc_unused (op : Opcode) (a b : Reg) (f : Int) : (enc op a b f).extractLsb 31 25 = 0#7 :=
  BitVec.eq_of_toNat_eq (by rw [← slice_eq_extractLsb, slice_enc_unused]; rfl)

section
variable {i : Nat} {table : LabelTable} {line : Line} {a b : Reg} {f : Int} {op : Opcode}

theorem SpellsOperands.registers (h : SpellsOperands i table line op a b f) (hop : op ≠ .halt ∧ op ≠ .noop) :
    numericValue line.arg0 = some (a.val : Int) ∧ numericValue line.arg1 = some (b.val : Int) := by
  obtain ⟨hhalt, hnoop⟩ := hop
  cases op with
  | halt => exact absurd rfl hhalt
  | noop => exact absurd rfl hnoop
  | add | nor | lw | sw | beq | jalr =>
    obtain ⟨ha, hb, -⟩ := h
    exact ⟨ha, hb⟩

theorem SpellsOperands.destination (h : SpellsOperands i table line op a b f) (hop : op = .add ∨ op = .nor) :
    numericValue line.arg2 = some f := by
  rcases hop with rfl | rfl <;> exact h.2.2

/-- The offset a line spells survives the 16-bit field (R78, R163). -/
theorem SpellsOperands.offset (h : SpellsOperands i table line op a b f) (hop : op = .lw ∨ op = .sw ∨ op = .beq) :
    offsetOperand op i table line.arg2 = .ok (sext32 (field16Of (enc op a b f))).toInt := by
  obtain ⟨hf, hlo, hhi⟩ : offsetOperand op i table line.arg2 = .ok f ∧ -32768 ≤ f ∧ f ≤ 32767 := by
    rcases hop with rfl | rfl | rfl <;> exact h.2.2
  rw [hf, sext32_field16Of_enc_toInt op a b hlo hhi]

/-- Outside the R-type the operands a line spells fit its format, and its word is canonical (R163). -/
theorem SpellsOperands.canonical_enc (h : SpellsOperands i table line op a b f) (hop : op ≠ .add ∧ op ≠ .nor) :
    canonical (enc op a b f) = true := by
  obtain ⟨hadd, hnor⟩ := hop
  cases op with
  | add => exact absurd rfl hadd
  | nor => exact absurd rfl hnor
  | lw | sw | beq =>
    obtain ⟨-, -, -, hlo, hhi⟩ := h
    exact canonical_enc_iType (by simp) a b hlo hhi
  | jalr =>
    obtain ⟨-, -, rfl⟩ := h
    exact canonical_encode (.jalr a b)
  | halt =>
    obtain ⟨rfl, rfl, rfl⟩ := h
    exact canonical_encode .halt
  | noop =>
    obtain ⟨rfl, rfl, rfl⟩ := h
    exact canonical_encode .noop

end

/-! ### The image -/

theorem assemble_ok_iff {lines : List Line} {image : List Word} :
    assemble lines = .ok image ↔ ∃ table, pass1 0 [] lines = .ok table ∧ pass2 0 table lines = .ok image := by
  rw [assemble]
  cases pass1 0 [] lines with
  | error e => simp
  | ok table => simp

theorem pass2_cons_ok_iff {i : Nat} {table : LabelTable} {line : Line} {lines : List Line} {w : Word} {ws : List Word} :
    pass2 i table (line :: lines) = .ok (w :: ws) ↔
      encodeLine i table line = .ok w ∧ pass2 (i + 1) table lines = .ok ws := by
  refine ⟨fun h => ?_, fun ⟨hw, hws⟩ => by rw [pass2, hw, hws]⟩
  obtain ⟨w', ws', hw, hws, heq⟩ := pass2_cons_ok h
  obtain ⟨rfl, rfl⟩ := List.cons.inj heq
  exact ⟨hw, hws⟩

/-- Pass 2 gives an image exactly when each line encodes, and the image has the words of the lines (R149, R162). -/
theorem pass2_ok_iff {i : Nat} {table : LabelTable} {lines : List Line} {image : List Word} :
    pass2 i table lines = .ok image ↔ image.length = lines.length ∧
      ∀ (k : Nat) (line : Line), lines[k]? = some line →
        ∃ w, image[k]? = some w ∧ encodeLine (i + k) table line = .ok w := by
  induction lines generalizing i image with
  | nil => simp [pass2]
  | cons line lines ih =>
    cases image with
    | nil =>
      refine iff_of_false (fun h => ?_) fun h => Nat.noConfusion h.1
      obtain ⟨w, ws, -, -, heq⟩ := pass2_cons_ok h
      cases heq
    | cons w ws =>
      have hshift (k : Nat) : i + 1 + k = i + (k + 1) := by omega
      simp only [pass2_cons_ok_iff, ih, hshift]
      refine ⟨fun ⟨hw, hlen, hws⟩ => ⟨congrArg Nat.succ hlen, fun k l hl => ?_⟩,
        fun ⟨hlen, h⟩ => ⟨?_, Nat.succ.inj hlen, fun k => h (k + 1)⟩⟩
      · cases k with
        | zero => cases hl; exact ⟨w, rfl, hw⟩
        | succ k => exact hws k l hl
      · obtain ⟨w', hw', he⟩ := h 0 line rfl
        cases hw'
        exact he

end Sys2Proof.Machine
end

section
/-! SUPPORT. The statements about pass 2 and the image (45_encoder_labels_fill.md R142, R149 to R164). -/

namespace Sys2Proof.Machine

/-- Settles O51: pass 2 runs against the table pass 1 finishes, and makes the image line by line. -/
theorem assembleIsTwoPassesAllOrNothing : Obligations.AssembleIsTwoPassesAllOrNothing := by
  intro lines image
  simp only [assemble_ok_iff, pass2_ok_iff, Nat.zero_add]

/-- Settles O52: a word of the image is that of its line against the finished table, and the fields of an encoded word are
read back. -/
theorem imageDecodesToItsLines : Obligations.ImageDecodesToItsLines := by
  intro lines image h
  obtain ⟨table, hpass, hlen, hwords⟩ := (assembleIsTwoPassesAllOrNothing lines image).mp h
  refine ⟨hlen, table, hpass, fun i line w op hline hw hop => ?_⟩
  obtain ⟨w', hw', hencode⟩ := hwords i line hline
  obtain rfl : w = w' := Option.some.inj (hw.symm.trans hw')
  obtain ⟨a, b, f, hspells, rfl⟩ := encodeLine_instr_ok hop hencode
  rw [decode_opcode, opcodeOf_enc, regAOf_enc, regBOf_enc, destOf_enc_val]
  refine ⟨extractLsb_enc_unused .., rfl, hspells.registers, fun hR => ?_, fun hls => ?_, fun hbeq => ?_,
    hspells.canonical_enc⟩
  · exact ⟨f, hspells.destination hR, rfl, fun ⟨hlo, hhi⟩ => canonical_enc_rType hR a b hlo hhi⟩
  · have hne : op ≠ .beq := by rcases hls with rfl | rfl <;> decide
    rw [← offsetOperand_of_ne_beq i hne, hspells.offset (hls.imp_right .inl)]
  · rw [← offsetOperand_beq, ← hbeq, hspells.offset (.inr (.inr hbeq))]

/-- Settles O48: a register operand is its token's value where that is a register's number. -/
theorem registerOperandIsCheckedBothWays : Obligations.RegisterOperandIsCheckedBothWays := by
  refine ⟨fun token => ⟨regOperand_of_symbol, fun k hk hlo hhi => ⟨_, regOperand_of_inRange hk hlo hhi, ?_⟩,
    fun k => regOperand_of_outside⟩, by decide, by decide, by decide, by decide, by decide, by decide⟩
  rw [Fin.val_ofNat]
  omega

/-- Settles O49: the registers good, the offset operand decides, and its value goes through one range check. -/
theorem offsetOperandIsRangeChecked : Obligations.OffsetOperandIsRangeChecked := by
  intro i table line op a b hmnemonic hop ha hb
  rw [encodeLine_of_iType hmnemonic hop]
  refine ⟨fun o ho => ?_, fun hsymbol hfind => ?_⟩
  · have hoffset : offsetOperand op i table line.arg2 = .ok o := by
      rcases ho with hnum | ⟨hsymbol, hne, v, hv, rfl⟩ | ⟨hsymbol, rfl, v, hv, hvo⟩
      · exact offsetOperand_of_numeric op i table hnum
      · rw [offsetOperand_of_ne_beq i hne, absoluteOperand_of_label hsymbol hv]
      · rw [offsetOperand_beq, relativeOperand_of_label hsymbol hv, hvo, add_sub_cancel_right]
    rw [hoffset, encodeIType_of_offset ha hb]
  · rw [offsetOperand_of_absent op i hsymbol hfind, encodeIType_of_offset_error ha hb]

/-- A decimal is a word's exactly when it is the word's signed value (R164). -/
theorem wordOfDecimal_eq_some_iff (d : Int) (w : Word) : wordOfDecimal d = some w ↔ w.toInt = d := by
  have hlo := BitVec.le_toInt w
  have hhi := BitVec.toInt_lt (x := w)
  rw [wordOfDecimal]
  refine ⟨fun h => ?_, ?_⟩
  · split at h
    · next hb => cases h; exact toInt_ofInteger hb.1 hb.2
    · cases h
  · rintro rfl
    rw [if_pos ⟨hlo, Int.le_sub_one_of_lt hhi⟩, Word.ofInteger, BitVec.ofInt_toInt]

/-- Settles O53: the signed value of a word lies in the range a reader accepts, and names that word alone. -/
theorem decimalImageReadsBack : Obligations.DecimalImageReadsBack := by
  refine ⟨fun image => rfl, by decide, by decide, fun image => ?_, wordOfDecimal_eq_some_iff⟩
  rw [imageDecimals, List.map_map]
  exact List.map_congr_left fun w _ => (wordOfDecimal_eq_some_iff w.toInt w).mpr rfl

end Sys2Proof.Machine
end

section
/-! SUPPORT. The exceptions (60_exceptions.md R180 to R186): the record of a fault is the one the state before justifies, no
other step faults, and the two ends of a run exclude each other. -/

namespace Sys2Proof.Machine

section
variable {s t : State}

/-! ### Which fault a step takes -/

/-- The three accesses that fault, the word fetched read at the unsigned value of `pc` (R181). -/
theorem faultJustified_invalidAddress_iff {k : AccessKind} {addr : Word} :
    FaultJustified s (.invalidAddress k addr) ↔
      (k = .fetch ∧ addr = s.pc ∧ ¬ s.fetchable) ∨
      (k = .load ∧ s.fetchable ∧ ¬ s.inMemory addr ∧
        ∃ a b f, decode (s.wordAt s.pc.toNat) = .lw a b f ∧ addr = s.effectiveAddress a f) ∨
      (k = .store ∧ s.fetchable ∧ ¬ s.inMemory addr ∧
        ∃ a b f, decode (s.wordAt s.pc.toNat) = .sw a b f ∧ addr = s.effectiveAddress a f) := by
  cases k with
  | fetch => simp [FaultJustified]
  | load | store =>
    simp only [FaultJustified, reduceCtorEq, true_and, false_and, false_or, or_false]
    exact and_congr_right fun hf => by rw [slot_eq_toNat hf.1]

/-- A running machine takes the fault its state justifies. -/
theorem step_of_faultJustified {r : FaultRecord} (hr : s.run = .running) (h : FaultJustified s r) :
    step s = .next (s.takeFault r) := by
  match r, h with
  | .invalidAddress .fetch _, ⟨haddr, hf⟩ => rw [haddr, step_of_unfetchable hr hf]
  | .invalidAddress .load _, ⟨hf, hm, a, b, f, hd, haddr⟩ =>
    rw [haddr] at hm ⊢
    rw [step_of_fetchable hr hf, hd, exec_lw_outside hm]
  | .invalidAddress .store _, ⟨hf, hm, a, b, f, hd, haddr⟩ =>
    rw [haddr] at hm ⊢
    rw [step_of_fetchable hr hf, hd, exec_sw_outside hm]

/-- The fetched instruction leaves the record, ending the run only by halting, or takes a fault the state justifies. -/
theorem exec_completes_or_faultJustified {i : Instr} (hf : s.fetchable) (hd : decode (s.wordAt (slot s.pc)) = i)
    (h : exec i s = .next t) :
    ((t.run = s.run ∨ t.run = .halted) ∧ t.faultInfo = s.faultInfo) ∨
    ∃ r, FaultJustified s r ∧ t = s.takeFault r := by
  cases i with
  | lw a b f =>
    by_cases hm : s.inMemory (s.effectiveAddress a f)
    · obtain rfl := Host.Outcome.next.inj ((exec_lw_inMemory hm).symm.trans h)
      exact .inl ⟨.inl rfl, rfl⟩
    · obtain rfl := Host.Outcome.next.inj ((exec_lw_outside hm).symm.trans h)
      exact .inr ⟨.invalidAddress .load _, ⟨hf, hm, a, b, f, hd, rfl⟩, rfl⟩
  | sw a b f =>
    by_cases hm : s.inMemory (s.effectiveAddress a f)
    · obtain rfl := Host.Outcome.next.inj ((exec_sw_inMemory hm).symm.trans h)
      exact .inl ⟨.inl rfl, rfl⟩
    · obtain rfl := Host.Outcome.next.inj ((exec_sw_outside hm).symm.trans h)
      exact .inr ⟨.invalidAddress .store _, ⟨hf, hm, a, b, f, hd, rfl⟩, rfl⟩
  | add | nor | beq | jalr | noop =>
    obtain rfl := Host.Outcome.next.inj h
    exact .inl ⟨.inl rfl, rfl⟩
  | halt =>
    obtain rfl := Host.Outcome.next.inj h
    exact .inl ⟨.inr rfl, rfl⟩

/-- Everything a step can do to the end and the record: it does not fault and leaves the record, or it takes a fault the
state justifies. -/
theorem step_completes_or_faultJustified (h : step s = .next t) :
    (t.run ≠ .faulted ∧ t.faultInfo = s.faultInfo) ∨ ∃ r, FaultJustified s r ∧ t = s.takeFault r := by
  obtain ⟨hr, ⟨hf, rfl⟩ | ⟨hf, he⟩⟩ := step_cases h
  · exact .inr ⟨.invalidAddress .fetch s.pc, ⟨rfl, hf⟩, rfl⟩
  · refine (exec_completes_or_faultJustified hf rfl he).imp_left fun ⟨hrun, hinfo⟩ => ⟨?_, hinfo⟩
    rcases hrun with hrun | hrun <;> simp [hrun, hr]

/-- A step that ends Faulted has taken a fault the state justifies. -/
theorem exists_takeFault_of_faulted (h : step s = .next t) (ht : t.run = .faulted) :
    ∃ r, FaultJustified s r ∧ t = s.takeFault r :=
  (step_completes_or_faultJustified h).resolve_left fun ⟨hne, _⟩ => hne ht

/-- No state justifies an invalid opcode, so a justified record is an address error (R182). -/
theorem FaultJustified.exists_invalidAddress {r : FaultRecord} (h : FaultJustified s r) :
    ∃ k addr, r = .invalidAddress k addr := by
  cases r with
  | invalidAddress k addr => exact ⟨k, addr, rfl⟩
  | invalidOpcode => exact h.elim

/-- A step of a running machine ends Faulted with a record exactly when the state before justifies the record. -/
theorem step_faulted_iff {r : FaultRecord} (hr : s.run = .running) (h : step s = .next t) :
    (t.run = .faulted ∧ t.faultInfo = some r) ↔ FaultJustified s r := by
  refine ⟨fun ⟨ht, hinfo⟩ => ?_, fun hj => ?_⟩
  · obtain ⟨r', hj, rfl⟩ := exists_takeFault_of_faulted h ht
    rwa [← Option.some.inj hinfo]
  · obtain rfl := Host.Outcome.next.inj ((step_of_faultJustified hr hj).symm.trans h)
    exact ⟨rfl, rfl⟩

/-- Settles O14: a step faults exactly as its state justifies, and the state justifies the three address errors. -/
theorem faultsExactlyOnTheThreeAddressErrors : Obligations.FaultsExactlyOnTheThreeAddressErrors := by
  refine fun s t k addr hr h => ⟨(step_faulted_iff hr h).trans faultJustified_invalidAddress_iff, fun ht => ?_⟩
  obtain ⟨r, hj, rfl⟩ := exists_takeFault_of_faulted h ht
  obtain ⟨k', addr', rfl⟩ := hj.exists_invalidAddress
  exact ⟨k', addr', rfl⟩

/-- Settles O15: taking a fault writes the run-state and the record alone, and a Faulted machine has no step. -/
theorem faultEntryIsPrecise : Obligations.FaultEntryIsPrecise := by
  intro s t _ h ht
  obtain ⟨r, -, rfl⟩ := exists_takeFault_of_faulted h ht
  exact ⟨⟨r, rfl⟩, step_ne_next_of_not_running (by simp)⟩

/-- Settles O16: the record is kept or is an address error. -/
theorem invalidOpcodeIsUnreachable : Obligations.InvalidOpcodeIsUnreachable := by
  intro s t h hs
  obtain ⟨-, hinfo⟩ | ⟨r, hj, rfl⟩ := step_completes_or_faultJustified h
  · rwa [hinfo]
  · obtain ⟨k, addr, rfl⟩ := hj.exists_invalidAddress
    simp

/-! ### The end of a run -/

/-- Settles O17: the further iterations start from a state without a step. -/
theorem endedRunNeverResumes : Obligations.EndedRunNeverResumes := by
  intro s n m hend
  rw [State.runFor_add, State.runFor_of_not_running hend]

/-- A run has one end: wherever two numbers of steps have ended it, they have reached the same state. -/
theorem State.runFor_eq_of_ended {n m : Nat} (hn : (s.runFor n).run ≠ .running) (hm : (s.runFor m).run ≠ .running) :
    s.runFor n = s.runFor m := by
  rcases Nat.le_total n m with hle | hle <;> obtain ⟨d, rfl⟩ := Nat.exists_eq_add_of_le hle
  · exact (endedRunNeverResumes s n d hn).symm
  · exact endedRunNeverResumes s m d hm

/-- Settles O19: a run has one end, which is Halted. -/
theorem haltingRunNeverFaults : Obligations.HaltingRunNeverFaults := by
  intro s ⟨n, hn⟩ m hm
  have hsame := State.runFor_eq_of_ended (s := s) (n := n) (m := m) (by simp [hn]) (by simp [hm])
  rw [hsame, hm] at hn
  cases hn

end

end Sys2Proof.Machine
end

section
/-! SUPPORT. Launch, reset and the normal end (70_reset_and_hazards.md R201 to R205): when a launch is refused, the machine
it gives, the invariant there, and the one word that halts a step. -/

namespace Sys2Proof.Machine

/-! ### The halting step -/

/-- Bits 24:22 alone decide whether a word is a `halt` (R69, R70). -/
theorem decode_eq_halt_iff (w : Word) : decode w = .halt ↔ w.extractLsb 24 22 = 6#3 := by
  refine ⟨fun h => ?_, fun h => decode_of_opcodeBits (op := .halt) h⟩
  have hop : opcodeOf w = .halt := by
    rw [← decode_opcode, h]
    rfl
  have hbits := extractLsb'_opcode w
  rw [hop] at hbits
  exact hbits

section
variable {s t : State}

/-- Of the instructions only `halt` ends a run Halted (R27, R130). -/
theorem exec_halted_iff {i : Instr} (hr : s.run = .running) (h : exec i s = .next t) :
    t.run = .halted ↔ i = .halt := by
  cases i with
  | lw a b f =>
    by_cases hm : s.inMemory (s.effectiveAddress a f)
    · obtain rfl := Host.Outcome.next.inj ((exec_lw_inMemory hm).symm.trans h)
      simp [hr]
    · obtain rfl := Host.Outcome.next.inj ((exec_lw_outside hm).symm.trans h)
      simp
  | sw a b f =>
    by_cases hm : s.inMemory (s.effectiveAddress a f)
    · obtain rfl := Host.Outcome.next.inj ((exec_sw_inMemory hm).symm.trans h)
      simp [hr]
    · obtain rfl := Host.Outcome.next.inj ((exec_sw_outside hm).symm.trans h)
      simp
  | add | nor | beq | jalr | noop =>
    obtain rfl := Host.Outcome.next.inj h
    simp [hr]
  | halt =>
    obtain rfl := Host.Outcome.next.inj h
    simp

/-- A step ends Halted exactly when it fetches a `halt`: the fetch fault ends Faulted. -/
theorem step_halted_iff (h : step s = .next t) :
    t.run = .halted ↔ s.fetchable ∧ decode (s.wordAt (slot s.pc)) = .halt := by
  obtain ⟨hr, ⟨hf, rfl⟩ | ⟨hf, he⟩⟩ := step_cases h
  · simp [hf]
  · rw [exec_halted_iff hr he, and_iff_right hf]

/-- A step that ends Halted completes and then halts, and does nothing else (R130). -/
theorem eq_complete_halt_of_halted (h : step s = .next t) (ht : t.run = .halted) : t = (s.complete s.nextPc).halt := by
  obtain ⟨hf, hd⟩ := (step_halted_iff h).mp ht
  rw [step_of_fetchable (running_of_step h) hf, hd, exec_halt] at h
  exact (Host.Outcome.next.inj h).symm

/-- Settles O20: a step halts exactly by a `halt`, which bits 24:22 decide, and it completes first. -/
theorem haltedExactlyByAHaltWord : Obligations.HaltedExactlyByAHaltWord := by
  intro s t _ h
  refine ⟨(step_halted_iff h).trans (and_congr_right fun hf => ?_), fun ht => ?_⟩
  · rw [slot_eq_toNat hf.1, decode_eq_halt_iff]
  · rw [eq_complete_halt_of_halted h ht]
    exact ⟨rfl, rfl⟩

end

/-! ### The launch -/

section
variable {cfg : Config} {image : List Word} {s : State}

theorem imageFits_iff : cfg.imageFits image = true ↔ image.length ≤ cfg.memWords := decide_eq_true_iff

/-- A launch gives the loaded machine when the capacity is in its range and the image fits, and nothing otherwise (R203). -/
theorem launch_eq_ok_iff :
    launch cfg image = .ok s ↔ cfg.wf = true ∧ image.length ≤ cfg.memWords ∧ State.loaded cfg image = s := by
  rw [← imageFits_iff]
  by_cases hcfg : cfg.wf = true
  · by_cases hfit : cfg.imageFits image = true
    · simp [launch, hcfg, hfit]
    · simp [launch, hcfg, hfit]
  · simp [launch, hcfg]

theorem launch_of_too_long (hcfg : cfg.wf = true) (h : cfg.memWords < image.length) :
    launch cfg image = .error .imageTooLong := by
  have hfit : ¬ cfg.imageFits image = true := by
    rw [imageFits_iff]
    omega
  simp [launch, hcfg, hfit]

/-- Every register of a loaded machine is 0 (R201). -/
theorem State.loaded_readReg (cfg : Config) (image : List Word) (r : Reg) :
    (State.loaded cfg image).readReg r = 0#32 := by
  simp [State.readReg, State.loaded]

/-- With no word loaded there is nothing to fetch (R91). -/
theorem State.not_fetchable_of_numLoaded_eq_zero (h : s.numLoaded = 0) : ¬ s.fetchable := by
  rintro ⟨hpos, hlt⟩
  rw [h] at hlt
  omega

/-- Settles O39: the launch gives the loaded machine, whose memory lists the image and whose first fetch finds a word only
if there is one. -/
theorem launchLoadsTheImage : Obligations.LaunchLoadsTheImage := by
  intro cfg image hcfg
  refine ⟨fun hfit => ⟨_, launch_eq_ok_iff.mpr ⟨hcfg, hfit, rfl⟩, fun i w hw => ?_, rfl, rfl,
    State.loaded_readReg cfg image, rfl, rfl, rfl, rfl, fun hempty => ?_⟩, fun hlong => ⟨_, launch_of_too_long hcfg hlong⟩⟩
  · exact State.wordAt_of_find ((State.loaded_find cfg image i).trans hw)
  · exact step_of_unfetchable rfl (State.not_fetchable_of_numLoaded_eq_zero (congrArg List.length hempty))

/-! ### The invariant at the start of a run -/

/-- A loaded machine meets the invariant: its memory lists the addresses of the image alone, which fits. -/
theorem State.loaded_inv (hcfg : cfg.wf = true) (hfit : image.length ≤ cfg.memWords) :
    (State.loaded cfg image).Inv := by
  have hlisted : ∀ a, (State.loaded cfg image).mem.find a ≠ none ↔ a < image.length := fun a => by
    rw [State.loaded_find, ne_eq, List.getElem?_eq_none_iff, Nat.not_le]
  exact State.inv_of_running hcfg hfit (imageCells_pairwise image 0)
    (fun a ha => ((hlisted a).mp ha).trans_le hfit) (fun a ha => (hlisted a).mpr ha) rfl rfl

/-- Settles O41: a launch that is not refused gives the loaded machine, within its bounds. -/
theorem invariantHoldsAfterLaunch : Obligations.InvariantHoldsAfterLaunch := by
  intro cfg image s h
  obtain ⟨hcfg, hfit, rfl⟩ := launch_eq_ok_iff.mp h
  exact State.loaded_inv hcfg hfit

/-- Settles O40: reset is the launch of the empty image. -/
theorem invariantHoldsAtReset : Obligations.InvariantHoldsAtReset := by
  have hcfg : Config.default.wf = true := by decide
  have hinv := State.loaded_inv (image := []) hcfg (Nat.zero_le _)
  rwa [← State.reset_eq_loaded] at hinv

end

end Sys2Proof.Machine
end

section
/-! SUPPORT. The words that the spec writes out (95_test_vectors.md V3 to V17): the word an instruction encodes to, and words
that differ from it in ignored bits alone. -/

namespace Sys2Proof.Machine

/-- Every instruction is well-formed, so the round trip of R73 has no hypothesis. -/
@[simp] theorem decode_encode (i : Instr) : decode (encode i) = i :=
  decodeOfEncodeIsTheInstruction i (by cases i <;> rfl)

theorem decode_of_encode_eq {i : Instr} {w : Word} (h : encode i = w) : decode w = i := by
  rw [← h, decode_encode]

/-- Settles O8: eight of the words are what their instruction encodes to; V4, V13, V15 and V17 agree with such a word on
the bits their format uses. -/
theorem wordsOfTheSpecDecode : Obligations.WordsOfTheSpecDecode := by
  have hjalr : decode 0x01770000#32 = .jalr 6 7 := decode_of_encode_eq (by decide)
  have hhalt : decode 0x01800000#32 = .halt := decode_of_encode_eq (by decide)
  have hnoop : decode 0x01C00000#32 = .noop := decode_of_encode_eq (by decide)
  refine ⟨decode_of_encode_eq (by decide), ?v4, decode_of_encode_eq (by decide), decode_of_encode_eq (by decide),
    decode_of_encode_eq (by decide), decode_of_encode_eq (by decide), hjalr, ?v13, hhalt, ?v15, hnoop, ?v17⟩
  case v4 =>
    rw [← decode_encode (.add 1 2 1)]
    exact decode_congr_of_rType (by decide) (by decide) (by decide)
  case v13 =>
    rw [← hjalr]
    exact decode_congr_of_jType (by decide) (by decide)
  case v15 =>
    rw [← hhalt]
    exact decode_congr_of_oType (by decide) (by decide)
  case v17 =>
    rw [← hnoop]
    exact decode_congr_of_oType (by decide) (by decide)

end Sys2Proof.Machine
end
